-- ==== Sys2Proof/Word.lean ====
section
/-! DEFINITION. The word type of the block (00_scope.md rules R5, R7). The width `W` is a parameter of an instance of the
block, so the type takes it as an argument. Operations whose meaning a test could show wrong (the shift, the mask scan) are
not here: they stand in Machine/Ops.lean. -/

namespace Sys2Proof

/-- A `W`-bit unsigned value, bit 0 least significant (rule R7). -/
abbrev Word (W : Nat) := BitVec W

/-- The 2-bit command port `op` (30_encoding.md rule R42). -/
abbrev Opcode := BitVec 2

end Sys2Proof
end

