-- ==== Sys2Proof/Config.lean ====
section
/-! DEFINITION. What one instance fixes (the width) and what the spec leaves unspecified (the registers before the first
reset). Every meaning of the model is stated for every width: the width of a run is the field `width` of its state, and
`Config.width` is used in two places only, `State.reset` and `decodeTableWord`, whose types leave no room for an argument. -/

namespace Sys2Proof

/-- The width of the instance that the fixed names `State.reset` and `decodeTableWord` stand for.
DESIGN CHOICE (log entry 1): rule R5 leaves `W` open and 92_eei_decisions.md D1 chooses no default; 8 is one of the widths
the source names and the one at which spec/opcode_table.json writes its command words. -/
def Config.width : Nat := 8

/-- `polynomial` after power-up and before the first reset step: a free value (10_state.md rule R25, log entry 4). -/
opaque Config.powerOnPolynomial (W : Nat) : Word W

/-- `mask` after power-up and before the first reset step: a free value (rule R25, log entry 4). -/
opaque Config.powerOnMask (W : Nat) : Word W

/-- `data` after power-up and before the first reset step: a free value (rule R25, log entry 4). -/
opaque Config.powerOnData (W : Nat) : Word W

end Sys2Proof
end

