-- ==== Sys2Proof/Syntax.lean ====
section
/-! DEFINITION. The commands of the block: one constructor for each row of spec/opcode_table.json, and the tuples in which
the host presents them (30_encoding.md rules R40 to R42). -/

namespace Sys2Proof

/-- The four values of `op` (30_encoding.md rule R42, "The map is complete"). An operand is a natural number because an
instruction is named without the width of the instance that executes it; `Instr.wellFormed` says that it fits (log entry 6). -/
inductive Instr where
  /-- `op = 00`, IDLE (42_idle_and_reserved.md rule R80). -/
  | idle
  /-- `op = 01`, ADV (41_advance.md rule R70). -/
  | adv
  /-- `op = 10`, INIT `poly_in, seed_in` (40_initialize.md rule R60). -/
  | init (polyIn seedIn : Nat)
  /-- `op = 11`, the reserved value (42_idle_and_reserved.md rule R81). -/
  | reserved11
  deriving DecidableEq, Repr

/-- A command as the host presents it: format `CMD`, three ports in parallel (rule R40). -/
structure Command (W : Nat) where
  op     : Opcode
  polyIn : Word W
  seedIn : Word W
  deriving DecidableEq, Repr

/-- Everything the block samples at one rising edge of `clk` (10_state.md rule R15). -/
structure Input (W : Nat) where
  rst : Bool
  cmd : Command W
  deriving DecidableEq, Repr

end Sys2Proof
end

