-- ==== Sys2Proof/WellFormed.lean ====
section
/-! DEFINITION. Which instructions are instructions of an instance of width `W`. -/

namespace Sys2Proof

/-- The operand is a value of a `W`-bit port, "in the range 0 to 2^W - 1" (30_encoding.md rules R43 and R48). -/
def fitsIn (W v : Nat) : Bool := decide (v < 2 ^ W)

/-- Both operands of INIT fit the instance; the other commands have no operand. Nothing else is checked: "Within INIT every
pair of operand values is legal" (30_encoding.md rule R46). The reserved value is an encoding like the others; that the host
must not drive it is a premise of Safety.lean. -/
def Instr.wellFormed (W : Nat) : Instr → Bool
  | .idle => true
  | .adv => true
  | .init polyIn seedIn => fitsIn W polyIn && fitsIn W seedIn
  | .reserved11 => true

end Sys2Proof
end

