-- ==== Sys2Proof/Decode.lean ====
section
/-! DEFINITION. From ports and command words to instructions, and back (30_encoding.md rules R40 to R47). -/

namespace Sys2Proof

/-- `op = 00` (rule R42). -/
def opIdle : Opcode := 0b00#2
/-- `op = 01` (rule R42). -/
def opAdv : Opcode := 0b01#2
/-- `op = 10` (rule R42). -/
def opInit : Opcode := 0b10#2
/-- `op = 11`, reserved (rules R42, R45). -/
def opReserved : Opcode := 0b11#2

/-- The operation is selected by `op` alone and every value of `op` is listed (rule R42); the operands are taken "whole and
unchanged" (rule R43) and only by INIT (rule R44). -/
def decode {W : Nat} (c : Command W) : Instr :=
  if c.op = opIdle then .idle
  else if c.op = opAdv then .adv
  else if c.op = opInit then .init c.polyIn.toNat c.seedIn.toNat
  else .reserved11

/-- The canonical command of an instruction: operand ports that it does not use are driven to 0 (rule R44). -/
def encode (W : Nat) : Instr → Command W
  | .idle => ⟨opIdle, 0#W, 0#W⟩
  | .adv => ⟨opAdv, 0#W, 0#W⟩
  | .init polyIn seedIn => ⟨opInit, BitVec.ofNat W polyIn, BitVec.ofNat W seedIn⟩
  | .reserved11 => ⟨opReserved, 0#W, 0#W⟩

/-- The canonical form of a command: the operand ports driven to 0 unless the command is INIT (rule R44). -/
def Command.canonical {W : Nat} (c : Command W) : Command W :=
  if c.op = opInit then c else ⟨c.op, 0#W, 0#W⟩

/-- The command word `CW = op ‖ poly_in ‖ seed_in` (rule R41). -/
def Command.toWord {W : Nat} (c : Command W) : BitVec (2 + W + W) :=
  c.op ++ c.polyIn ++ c.seedIn

/-- The fields of a command word: `op` is bits `2W+1:2W`, `poly_in` bits `2W-1:W`, `seed_in` bits `W-1:0` (rule R41). -/
def Command.ofWord {W : Nat} (cw : BitVec (2 + W + W)) : Command W :=
  ⟨cw.extractLsb' (2 * W) 2, cw.extractLsb' W W, cw.extractLsb' 0 W⟩

/-- Why a number is not a command word. -/
inductive DecodeError where
  /-- The number has a bit at or above position `2 + 2W`, where no command word has one (rules R41, R47). -/
  | wordTooWide
  deriving DecidableEq, Repr

/-- The instruction of a command word written as a number, as traces and test vectors write it (rule R41). Total: a number
that is no command word of this width is rejected by name. -/
def decodeWord (W n : Nat) : Except DecodeError Instr :=
  if n < 2 ^ (2 + W + W) then .ok (decode (Command.ofWord (BitVec.ofNat (2 + W + W) n)))
  else .error .wordTooWide

/-- The command word of an instruction, as a number (rule R41). -/
def encodeWord (W : Nat) (i : Instr) : Nat := (encode W i).toWord.toNat

/-- The command that a word of spec/opcode_table.json stands for (log entry 7). The table numbers the 2-bit field `op` alone
("match_mask_over": "op[1:0]"), so a word of one byte holds `op` in bits 1:0 and both operand ports are 0. A word long enough
to be a whole command word (the table's "encoding") is read as `CW` by the field table of rule R41. -/
def tableCommand (W nbits w : Nat) : Command W :=
  if nbits ≤ 8 ∨ nbits < 2 + W + W then ⟨BitVec.ofNat 2 (w % 2 ^ nbits), 0#W, 0#W⟩
  else Command.ofWord (BitVec.ofNat (2 + W + W) (w % 2 ^ nbits))

/-- The instruction that the decoder reads from a table word, on the instance of width `Config.width`. Never `none`: the map
over `op` is complete (rule R42), the reserved value included. -/
def decodeTableWord (nbits w : Nat) : Option Instr :=
  some (decode (tableCommand Config.width nbits w))

end Sys2Proof
end

