-- ==== Sys2Proof/Machine/State.lean ====
section
/-! DEFINITION. The state of the machine, the reasons a step can stop, and the state after reset. -/

namespace Sys2Proof.Machine

/-- The architectural state, "exactly three registers, each `W` bits wide" (10_state.md rule R10). -/
structure Register (W : Nat) where
  /-- The stored feedback taps, bit 0 forced to 1 by INIT (rule R17). -/
  polynomial : Word W
  /-- The feedback-trigger sentinel: a single bit, or 0 (rule R18). -/
  mask : Word W
  /-- The shift register (rules R11, R12). -/
  data : Word W
  deriving DecidableEq, Repr

/-- A run of one instance of the block: its registers, and the host that owns it (10_state.md rule R26).
The registers are the spec's whole architectural state; the other three fields are the model's own (log entries 1, 2, 4). -/
structure State where
  /-- The width `W`, fixed per instance; no command reads or writes it (10_state.md rule R19). -/
  width : Nat
  /-- The registers `polynomial`, `mask` and `data` (rule R10). -/
  reg : Register width
  /-- Whether a reset step has happened since power-up (rule R25: before it the registers are unspecified). -/
  resetSeen : Bool
  /-- The input tuples the host will drive, one per coming rising edge, the next one first
  (20_memory.md rule R36, 70_reset_and_hazards.md rules R126, R129). -/
  inputs : List (Input width)
  deriving DecidableEq, Repr

/-- The faults of the block: none. "The complete table of exception causes is empty" (60_exceptions.md rule R100), so the type
has no constructor and no step can answer a fault. Safe: nothing can be concluded from a fault that never happens. -/
inductive Fault where
  deriving DecidableEq, Repr

/-- Why a step has no meaning. Every reason is safe: nothing can be proved of what lies behind a refusal. -/
inductive Refusal where
  /-- Raised by an arm of exec whose instruction has no meaning yet; no arm raises it. Safe. -/
  | notModelled (mnemonic : String)
  /-- Raised by `op = 11` with `rst = 0`: "This spec defines no next state and no output" and "Model treatment: `refuse`"
  (42_idle_and_reserved.md rule R81). Safe. -/
  | reservedCommand
  /-- Raised by a step with `rst = 0` before the first reset step: the spec "gives no meaning to a run that begins otherwise
  (treat as `refuse`)" (10_state.md rule R25). Safe. -/
  | beforeReset
  /-- Raised by a step when the host's command stream has ended: "A run ends when the host stops issuing commands"
  (70_reset_and_hazards.md rule R129, log entry 3). Safe. -/
  | endOfStream
  /-- Raised by INIT with an operand that is no `W`-bit value, which no port can carry and no decoder yields ("an instance of
  width `W` never sees a value of another width", 20_memory.md rule R31, log entry 6). Safe. -/
  | operandTooWide
  deriving DecidableEq, Repr

/-- The registers after a reset step: "the three zeros" (10_state.md rule R20, 70_reset_and_hazards.md rules R120, R121). -/
def Register.zero (W : Nat) : Register W := ⟨0#W, 0#W, 0#W⟩

/-- An instance of width `W` right after a reset step, with the command stream `inputs` to come. -/
def State.resetAt (W : Nat) (inputs : List (Input W)) : State := ⟨W, Register.zero W, true, inputs⟩

/-- An instance of width `W` to which power has just been applied: no reset step yet, the registers free
(10_state.md rule R25, 70_reset_and_hazards.md rule R122). -/
def State.powerOn (W : Nat) (inputs : List (Input W)) : State :=
  ⟨W, ⟨Config.powerOnPolynomial W, Config.powerOnMask W, Config.powerOnData W⟩, false, inputs⟩

/-- The machine right after reset: the three registers are 0 (rule R20). The model's own fields: the width is
`Config.width` (log entry 1), a reset step has happened (log entry 4), and no command is listed (log entry 8). -/
def State.reset : State := State.resetAt Config.width []

end Sys2Proof.Machine
end

