-- ==== Sys2Proof/Machine/Ops.lean ====
section
/-! DEFINITION. The operations the rules use on words and registers, taking a reset, and the host's side of a state.

The block has no memory (20_memory.md rule R30), no program counter (10_state.md rule R13) and no exceptions
(60_exceptions.md rules R100, R103, R104), so there are no memory operations, no taking of an exception and no return from
one: "The only event that changes state other than a command is reset", which is `State.takeReset`. -/

namespace Sys2Proof.Machine

/-- `shl1(v)`, the left shift by one: `(2 * v) mod 2^W` (00_scope.md rule R8). -/
def shl1 {W : Nat} (v : Word W) : Word W := v <<< 1

/-- `1 << i`, the `W`-bit value `2^i` (00_scope.md, notation). -/
def bitAt (W i : Nat) : Word W := BitVec.twoPow W i

/-- The scan of `n` positions of `p`, from `lo + n - 1` downward to `lo`: the single-bit value at the first set bit found,
0 if there is none (the loop of 40_initialize.md rule R62). -/
def maskScan {W : Nat} (p : Word W) (lo : Nat) : Nat → Word W
  | 0 => 0#W
  | n + 1 => if p.getLsbD (lo + n) then bitAt W (lo + n) else maskScan p lo n

/-- `mask_of(p)`: the scan from bit `W-2` down to bit 1, empty when `W < 3` (40_initialize.md rule R62; the lower bound is
conflict C1 of 90_conflicts.md, decided as bit 1, log entry 9). -/
def maskOf {W : Nat} (p : Word W) : Word W := maskScan p 1 (W - 2)

/-- `nextbit(data, mask)` as a test: is the mask bit of the SHIFTED value set? (41_advance.md rules R70, R71, R72). -/
def hits {W : Nat} (data mask : Word W) : Bool := decide (shl1 data &&& mask ≠ 0#W)

/-- INIT's effect on the registers (40_initialize.md rule R60). It reads no register. -/
def Register.load {W : Nat} (polyIn seedIn : Word W) : Register W :=
  { polynomial := polyIn ||| 1#W       -- rule R61
    mask       := maskOf polyIn        -- rules R62, R65
    data       := seedIn }             -- rule R63

/-- ADV's effect on the registers (41_advance.md rule R70): `data` only (rule R73). -/
def Register.advance {W : Nat} (r : Register W) : Register W :=
  { r with data := if hits r.data r.mask then shl1 r.data ^^^ r.polynomial else shl1 r.data }

/-- Write the registers; the width, the host's stream and the power-up history stay. -/
def State.withReg (s : State) (r : Register s.width) : State := { s with reg := r }

/-- The input tuple the block samples at the coming rising edge, if the host drives one (70_reset_and_hazards.md rules R126,
R129). -/
def State.sampled (s : State) : Option (Input s.width) := s.inputs.head?

/-- The state with the sampled tuple taken off the host's stream: a command is "never held over, queued or split" (rule
R126). -/
def State.consumed (s : State) : State := { s with inputs := s.inputs.tail }

/-- A reset step: the registers are zeroed whatever else was sampled (70_reset_and_hazards.md rule R120). -/
def State.takeReset (s : State) : State := { s with reg := Register.zero s.width, resetSeen := true }

/-- The state in which the host drives the command `c` at the coming edge, before what it had planned, in a run that a reset
step has begun (log entry 8). -/
def State.present (s : State) (c : Command s.width) : State :=
  { s with resetSeen := true, inputs := ⟨false, c⟩ :: s.inputs }

end Sys2Proof.Machine
end

