-- ==== Sys2Proof/Machine/Advance.lean ====
section
/-! DEFINITION. The meaning of ADV (41_advance.md). -/

namespace Sys2Proof.Machine

/-- ADV: shift, test the mask bit of the shifted value, XOR the stored polynomial in when it is set (rule R70). Defined on
every state the block can hold (rule R74). The bit it returns is `bit_out` of the state before the step (rule R71), see
Machine/Run.lean. -/
def execAdv (s : State) : Host.Outcome State Fault Refusal :=
  .next (s.withReg s.reg.advance)

end Sys2Proof.Machine
end

