-- ==== Sys2Proof/Machine/Idle.lean ====
section
/-! DEFINITION. The meanings of IDLE and of the reserved value `op = 11` (42_idle_and_reserved.md). -/

namespace Sys2Proof.Machine

/-- IDLE: "all three unchanged" (rule R80). -/
def execIdle (s : State) : Host.Outcome State Fault Refusal := .next s

/-- The reserved value: "The step function has no result for this input; the model marks the run refused" (rule R81). -/
def execReserved11 (_s : State) : Host.Outcome State Fault Refusal := .refused .reservedCommand

end Sys2Proof.Machine
end

