-- ==== Sys2Proof/Machine/Operands.lean ====
section
/-! DEFINITION. Operand assembly (30_encoding.md rules R43, R44): the block has one operand form, a `W`-bit value taken whole
from its port. -/

namespace Sys2Proof.Machine

/-- The operand as the port of an instance of width `W` carries it: "no sign or zero extension, no scaling, no shift, no
reordering of bits, no range check" (rule R43). `none` for a number that is no `W`-bit value (log entry 6). -/
def operand (W v : Nat) : Option (Word W) :=
  if fitsIn W v then some (BitVec.ofNat W v) else none

end Sys2Proof.Machine
end

