-- ==== Sys2Proof/Machine/Initialization.lean ====
section
/-! DEFINITION. The meaning of INIT (40_initialize.md). -/

namespace Sys2Proof.Machine

/-- INIT: load the configuration and the seed (rule R60). Total on the operands the ports can carry (rule R64), in every
state; degenerate operands are executed by the same rule (60_exceptions.md rule R112). -/
def execInit (polyIn seedIn : Nat) (s : State) : Host.Outcome State Fault Refusal :=
  match operand s.width polyIn, operand s.width seedIn with
  | some p, some d => .next (s.withReg (Register.load p d))
  | _, _ => .refused .operandTooWide

end Sys2Proof.Machine
end

