-- ==== Sys2Proof/Machine/Dispatch.lean ====
section
/-! DEFINITION. One arm per constructor of Instr. -/

namespace Sys2Proof.Machine

def exec (i : Instr) (s : State) : Host.Outcome State Fault Refusal :=
  match i with
  | .idle => Sys2Proof.Machine.execIdle s
  | .adv => Sys2Proof.Machine.execAdv s
  | .init polyIn seedIn => Sys2Proof.Machine.execInit polyIn seedIn s
  | .reserved11 => Sys2Proof.Machine.execReserved11 s

end Sys2Proof.Machine
end

