-- ==== Sys2Proof/Machine/Edge.lean ====
section
/-! DEFINITION. One rising edge of `clk` (70_reset_and_hazards.md rule R126). -/

namespace Sys2Proof.Machine

/-- The step of rule R126: reset first, whatever `op` holds (rules R102, R120); otherwise the decoded command. A command
before the first reset step has no meaning (10_state.md rule R25), and with no tuple left the run has ended (rule R129). -/
def risingEdge (s : State) : Host.Outcome State Fault Refusal :=
  match s.sampled with
  | none => .refused .endOfStream
  | some inp =>
    if inp.rst then .next s.consumed.takeReset
    else if s.resetSeen then exec (decode inp.cmd) s.consumed
    else .refused .beforeReset

end Sys2Proof.Machine
end

