-- ==== Sys2Proof/Machine/Step.lean ====
section
/-! DEFINITION. The step, and the placing of one instruction where the next step takes it from. -/

namespace Sys2Proof.Machine

/-- One step of the machine: one rising edge of `clk` (70_reset_and_hazards.md rule R126). -/
def step (s : State) : Host.Outcome State Fault Refusal := risingEdge s

/-- `s` with the command of a table word driven at the coming edge. The block fetches nothing (10_state.md rule R13): its
program is the host's command stream, so the word goes to the head of that stream (log entry 8). -/
def State.withFetchWord (s : State) (nbits w : Nat) : State := s.present (tableCommand s.width nbits w)

end Sys2Proof.Machine
end

