-- ==== Sys2Proof/Machine/Flags.lean ====
section
/-! DEFINITION. The block has no status flags, no condition codes and no predicate registers (10_state.md rule R14). What it
has instead are the output ports, combinational functions of the current state (rule R16); nothing is stored for them. -/

namespace Sys2Proof.Machine

/-- `bit_out`: the bit that an ADV issued in this step returns (10_state.md rule R16, 41_advance.md rule R71).
`true` is 1 (log entry 11). -/
def Register.bitOut {W : Nat} (r : Register W) : Bool := hits r.data r.mask

/-- `data_out` (rule R16). -/
def Register.dataOut {W : Nat} (r : Register W) : Word W := r.data

/-- `mask_out` (rule R16). -/
def Register.maskOut {W : Nat} (r : Register W) : Word W := r.mask

/-- `poly_out` (rule R16). -/
def Register.polyOut {W : Nat} (r : Register W) : Word W := r.polynomial

end Sys2Proof.Machine
end

