-- ==== Sys2Proof/Machine/Run.lean ====
section
/-! DEFINITION. What the host observes of a run: the bits that its ADV steps return (41_advance.md rule R71,
70_reset_and_hazards.md rules R128 (e), R129). -/

namespace Sys2Proof.Machine

/-- The bit returned in the step that `s` is about to take: `bit_out` before the edge, if the command sampled at it is ADV;
in any other step `bit_out` is a preview and no bit is returned (rule R71). -/
def State.returnedBit (s : State) : Option Bool :=
  match s.sampled with
  | none => none
  | some inp =>
    if s.resetSeen && !inp.rst && decide (inp.cmd.op = opAdv) then some s.reg.bitOut else none

/-- The bits returned in the first `n` steps from `s`, the first one first; a run that stops returns no more. -/
def bitsReturned : Nat → State → List Bool
  | 0, _ => []
  | n + 1, s =>
    s.returnedBit.toList ++
      match step s with
      | .next t => bitsReturned n t
      | .fault _ => []
      | .refused _ => []

/-- The run of `n` steps from `s`. -/
def run (n : Nat) (s : State) : Host.Outcome State Fault Refusal := Sys2Proof.core.run n s

end Sys2Proof.Machine
end

