-- ==== Sys2Proof/Machine/Trace.lean ====
section
/-! DEFINITION. The trace syntax and its pseudo-commands (30_encoding.md rules R48, R49, R50): reading a line, the steps it
stands for, and replaying a trace against the values it records. What the rules leave open of the syntax (white space, the
place and the form of a record) is log entry 12. -/

namespace Sys2Proof.Machine

/-- What one line of a trace asks for (rules R48, R49). -/
inductive TraceCommand where
  | reset
  | idle
  | adv
  | init (poly seed : Nat)
  | advn (n : Nat)
  | idlen (n : Nat)
  | reinit (poly seed : Nat)
  deriving DecidableEq, Repr

/-- A line: its command and what it records, the `bit_out` sampled in its steps and the `data_out` after them (rule R48). -/
structure TraceLine where
  command : TraceCommand
  bits : Option (List Bool)
  data : Option Nat
  deriving DecidableEq, Repr

/-- What is wrong with a trace. -/
inductive TraceError where
  /-- The line is not of the form of rule R48 or R49; `op = 11` among them, since "There is no mnemonic for `op = 11`". -/
  | badSyntax
  /-- "A literal that does not fit in `W` bits is an error of the trace, not truncated" (rule R48). -/
  | literalTooWide
  /-- The recorded `bit` differs from the sampled `bit_out`. -/
  | bitDiffers
  /-- The recorded `data` differs from `data_out` after the line. -/
  | dataDiffers
  /-- A step of the line has no meaning. -/
  | stopped (why : Refusal)
  deriving DecidableEq, Repr

/-- One input tuple for each step of the line (rules R48, R49); operand ports that the command ignores are driven to 0 (rule
R44). On a RESET line "`op` and the operands are ignored" (rule R48); they are driven to 0 too (DESIGN CHOICE, log entry 12). -/
def TraceCommand.expand (W : Nat) : TraceCommand → Except TraceError (List (Input W))
  | .reset => .ok [⟨true, encode W .idle⟩]
  | .idle => .ok [⟨false, encode W .idle⟩]
  | .adv => .ok [⟨false, encode W .adv⟩]
  | .init poly seed | .reinit poly seed =>
    if (Instr.init poly seed).wellFormed W then .ok [⟨false, encode W (.init poly seed)⟩] else .error .literalTooWide
  | .advn n => .ok (List.replicate n ⟨false, encode W .adv⟩)
  | .idlen n => .ok (List.replicate n ⟨false, encode W .idle⟩)

/-- The tuples of a whole trace, in its order. -/
def expandTrace (W : Nat) : List TraceCommand → Except TraceError (List (Input W))
  | [] => .ok []
  | c :: rest =>
    match c.expand W, expandTrace W rest with
    | .ok a, .ok b => .ok (a ++ b)
    | .error e, _ => .error e
    | .ok _, .error e => .error e

/-- "A well-formed trace begins with `RESET`" (rule R50). -/
def beginsWithReset : List TraceCommand → Bool
  | .reset :: _ => true
  | _ => false

/-- After each reset, an INIT comes before the first ADV: the lifecycle the source describes (rule R50). `ready` says that an
INIT has come. A trace outside it still has a meaning (70_reset_and_hazards.md rule R124). -/
def withinLifecycle (ready : Bool) : List TraceCommand → Bool
  | [] => true
  | .reset :: rest => withinLifecycle false rest
  | .idle :: rest => withinLifecycle ready rest
  | .idlen _ :: rest => withinLifecycle ready rest
  | .init _ _ :: rest => withinLifecycle true rest
  | .reinit _ _ :: rest => withinLifecycle true rest
  | .adv :: rest => ready && withinLifecycle ready rest
  | .advn n :: rest => (ready || n == 0) && withinLifecycle ready rest

/-- `bit_out` sampled in each of the next `n` steps and the state after them. -/
def sampleSteps : Nat → State → Except TraceError (List Bool × State)
  | 0, s => .ok ([], s)
  | n + 1, s =>
    match step s with
    | .next t =>
      match sampleSteps n t with
      | .ok (bits, u) => .ok (s.reg.bitOut :: bits, u)
      | .error e => .error e
    | .fault r => nomatch r
    | .refused r => .error (.stopped r)

/-- Drive the steps of one line and compare what it records. -/
def TraceLine.replay (l : TraceLine) (s : State) : Except TraceError State :=
  match l.command.expand s.width with
  | .error e => .error e
  | .ok ins =>
    match sampleSteps ins.length { s with inputs := ins ++ s.inputs } with
    | .error e => .error e
    | .ok (bits, t) =>
      if ¬ fitsIn s.width (l.data.getD 0) then .error .literalTooWide
      else if l.bits.getD bits ≠ bits then .error .bitDiffers
      else if l.data.getD t.reg.dataOut.toNat ≠ t.reg.dataOut.toNat then .error .dataDiffers
      else .ok t

/-- Replay the lines of a trace in order. -/
def replayTrace : List TraceLine → State → Except TraceError State
  | [], s => .ok s
  | l :: rest, s =>
    match l.replay s with
    | .ok t => replayTrace rest t
    | .error e => .error e

/-! Reading a line. -/

/-- ASCII lower case: mnemonics are case-insensitive (rule R48). -/
def lowerChar (c : Char) : Char :=
  if 65 ≤ c.toNat ∧ c.toNat ≤ 90 then Char.ofNat (c.toNat + 32) else c

/-- A line cut into tokens, in lower case, up to a comment: `;` starts one (rule R48). `word` is the token being read, its
last character first; spaces and tabs separate tokens, and `,`, `=` and `->` are tokens of their own. -/
def tokens (word : List Char) : List Char → List (List Char)
  | [] => flush []
  | c :: rest =>
    if c = ';' then flush []
    else if c = ' ' ∨ c = '\t' ∨ c = '\r' then flush (tokens [] rest)
    else if c = ',' ∨ c = '=' then flush ([c] :: tokens [] rest)
    else if c = '>' ∧ word.head? = some '-' then
      (if word.tail.isEmpty then id else (word.tail.reverse :: ·)) (['-', '>'] :: tokens [] rest)
    else tokens (lowerChar c :: word) rest
where
  flush (more : List (List Char)) : List (List Char) := if word.isEmpty then more else word.reverse :: more

/-- The value of a digit (lower case). -/
def digitValue (c : Char) : Option Nat :=
  if 48 ≤ c.toNat ∧ c.toNat ≤ 57 then some (c.toNat - 48)
  else if 97 ≤ c.toNat ∧ c.toNat ≤ 102 then some (c.toNat - 87)
  else none

/-- Digits in a base, the most significant first; `acc` is the value read so far. -/
def digitsValue (base acc : Nat) : List Char → Option Nat
  | [] => some acc
  | c :: rest =>
    match digitValue c with
    | some d => if d < base then digitsValue base (acc * base + d) rest else none
    | none => none

/-- A decimal number, at least one digit. -/
def readDecimal (t : List Char) : Option Nat := if t.isEmpty then none else digitsValue 10 0 t

/-- A literal "written in hexadecimal (`0x19`), binary (`0b00011001`) or decimal" (rule R48). -/
def readLiteral : List Char → Option Nat
  | '0' :: 'x' :: ds => if ds.isEmpty then none else digitsValue 16 0 ds
  | '0' :: 'b' :: ds => if ds.isEmpty then none else digitsValue 2 0 ds
  | t => readDecimal t

/-- A string of bits, the first sampled one leftmost (rule R49). -/
def readBits : List Char → Option (List Bool)
  | [] => some []
  | c :: rest =>
    match readBits rest with
    | some bs => if c = '0' then some (false :: bs) else if c = '1' then some (true :: bs) else none
    | none => none

/-- The command at the head of a line's tokens, and the tokens after it (rules R48, R49). -/
def readCommand : List (List Char) → Option (TraceCommand × List (List Char))
  | [] => none
  | t :: rest =>
    if t = ['r', 'e', 's', 'e', 't'] then some (.reset, rest)
    else if t = ['i', 'd', 'l', 'e'] then some (.idle, rest)
    else if t = ['a', 'd', 'v'] ∨ t = ['a', 'd', 'v', 'a', 'n', 'c', 'e'] then some (.adv, rest)
    else if t = ['i', 'n', 'i', 't'] then readPair .init rest
    else if t = ['r', 'e', 'i', 'n', 'i', 't'] then readPair .reinit rest
    else if t = ['a', 'd', 'v', 'n'] then readCount .advn rest
    else if t = ['i', 'd', 'l', 'e', 'n'] then readCount .idlen rest
    else none
where
  readPair (mk : Nat → Nat → TraceCommand) : List (List Char) → Option (TraceCommand × List (List Char))
    | p :: [','] :: q :: rest =>
      match readLiteral p, readLiteral q with
      | some a, some b => some (mk a b, rest)
      | _, _ => none
    | _ => none
  readCount (mk : Nat → TraceCommand) : List (List Char) → Option (TraceCommand × List (List Char))
    | n :: rest => (readDecimal n).map fun k => (mk k, rest)
    | [] => none

/-- What follows the command: nothing, or a record (rule R48): `-> bit=<b>`, with `data=<v>` after it or not, or a `data` record
alone. DESIGN CHOICE (log entry 12): rule R48 writes `-> bit=<b>` and `data=<v>` and does not say how a `data` record is
introduced on a line that has no `bit` record; both `-> data=<v>` and `data=<v>` are read. A `bit` record stands before a `data`
record, and a recorded bit string is never empty. DESIGN CHOICE (log entry 12): rule R48 gives the forms of a literal for the
operands of INIT only; the `<v>` of a `data` record is read in the same forms, so an unprefixed `data=10` is decimal ten and not
the bare hexadecimal in which the tables of 95_test_vectors.md write data values. -/
def readRecord : List (List Char) → Option (Option (List Bool) × Option Nat)
  | [] => some (none, none)
  | ['-', '>'] :: ['b', 'i', 't'] :: ['='] :: b :: rest =>
    match readBits b, readData rest with
    | some bs, some d => some (some bs, d)
    | _, _ => none
  | ['-', '>'] :: d :: rest => (readData (d :: rest)).map fun v => (none, v)
  | d :: rest => (readData (d :: rest)).map fun v => (none, v)
where
  /-- `data=<v>` or nothing; `<v>` is a literal, decimal where it has no prefix (DESIGN CHOICE, log entry 12). -/
  readData : List (List Char) → Option (Option Nat)
    | [] => some none
    | [['d', 'a', 't', 'a'], ['='], v] => (readLiteral v).map some
    | _ => none

/-- One line of a trace; `none` for a line that holds nothing but white space or a comment. -/
def readLine (cs : List Char) : Except TraceError (Option TraceLine) :=
  match tokens [] cs with
  | [] => .ok none
  | ts =>
    match readCommand ts with
    | none => .error .badSyntax
    | some (c, rest) =>
      match readRecord rest with
      | some (bits, data) => .ok (some ⟨c, bits, data⟩)
      | none => .error .badSyntax

/-- The text cut at its line breaks; `line` is the line being read, its last character first. -/
def textLines (line : List Char) : List Char → List (List Char)
  | [] => [line.reverse]
  | c :: rest => if c = '\n' then line.reverse :: textLines [] rest else textLines (c :: line) rest

/-- A whole trace, "one step per line" (rule R48). -/
def readTrace (text : List Char) : Except TraceError (List TraceLine) :=
  readLines (textLines [] text)
where
  readLines : List (List Char) → Except TraceError (List TraceLine)
    | [] => .ok []
    | l :: rest =>
      match readLine l, readLines rest with
      | .ok none, .ok ls => .ok ls
      | .ok (some x), .ok ls => .ok (x :: ls)
      | .error e, _ => .error e
      | .ok _, .error e => .error e

end Sys2Proof.Machine
end

