-- ==== Sys2Proof/Machine/Sequence.lean ====
section
/-! DEFINITION. The sequences that a configuration generates, as 43_sequence_properties.md rule R86 defines them, and the step
of 70_reset_and_hazards.md rule R126 on the three registers alone. Neither goes through exec or step: claims compare the
machine with them. -/

namespace Sys2Proof.Machine

/-- `d_n` of rule R86 for stored polynomial `P`, mask `m` and seed `d0`: the value of `data` after `n` ADV. -/
def genData {W : Nat} (P m d0 : Word W) : Nat → Word W
  | 0 => d0
  | n + 1 =>
    if shl1 (genData P m d0 n) &&& m ≠ 0#W then shl1 (genData P m d0 n) ^^^ P else shl1 (genData P m d0 n)

/-- `b_(n+1)` of rule R86, the bit that the `n+1`st ADV returns: counted from 0 here, from 1 in the rule. -/
def genBit {W : Nat} (P m d0 : Word W) (n : Nat) : Bool := decide (shl1 (genData P m d0 n) &&& m ≠ 0#W)

/-- `d_n` of the sequence generated by the operands `(p, s)` of INIT (rule R86). -/
def seqData {W : Nat} (p s : Word W) (n : Nat) : Word W := genData (p ||| 1#W) (maskOf p) s n

/-- `b_(n+1)` of the sequence generated by the operands `(p, s)` of INIT (rule R86). -/
def seqBit {W : Nat} (p s : Word W) (n : Nat) : Bool := genBit (p ||| 1#W) (maskOf p) s n

/-- The first `n` bits of the sequence, the first returned bit first. -/
def seqBits {W : Nat} (p s : Word W) (n : Nat) : List Bool := (List.range n).map (seqBit p s)

/-- `step(S, rst, op, poly_in, seed_in)` of rule R126, on the registers alone; `none` is `refuse`. -/
def Register.next {W : Nat} (r : Register W) (inp : Input W) : Option (Register W) :=
  if inp.rst then some (Register.zero W)
  else if inp.cmd.op = 0b00#2 then some r
  else if inp.cmd.op = 0b01#2 then some r.advance
  else if inp.cmd.op = 0b10#2 then some (Register.load inp.cmd.polyIn inp.cmd.seedIn)
  else none

end Sys2Proof.Machine
end

