-- ==== Sys2Proof/Safety.lean ====
section
/-! DEFINITION. What a safe run is, in the terms claims use, and the invariants of the registers. -/

namespace Sys2Proof.Machine

/-- The host may drive this tuple: it never drives `op = 11` with `rst = 0` (70_reset_and_hazards.md rule R128 (b)). -/
def permitted {W : Nat} (inp : Input W) : Bool := inp.rst || decide (inp.cmd.op ≠ opReserved)

/-- The tuple is neither a reset nor an INIT: a step that leaves the configuration alone (10_state.md rule R22). -/
def keepsConfiguration {W : Nat} (inp : Input W) : Bool := !inp.rst && decide (inp.cmd.op ≠ opInit)

/-- The tuple drives ADV. -/
def isAdv {W : Nat} (inp : Input W) : Bool := !inp.rst && decide (inp.cmd.op = opAdv)

/-- The tuple drives IDLE or ADV. -/
def isIdleOrAdv {W : Nat} (inp : Input W) : Bool :=
  !inp.rst && (decide (inp.cmd.op = opIdle) || decide (inp.cmd.op = opAdv))

/-- The host keeps the premises of rule R128 that its ports can express: the run begins with a reset step (a), and the
reserved command is never driven (b). -/
def State.hostObeys (s : State) : Bool :=
  (s.resetSeen || (match s.inputs with | [] => true | inp :: _ => inp.rst)) && s.inputs.all permitted

/-- A safe run of `n` steps: every one of them has a meaning. -/
def SafeFor (n : Nat) (s : State) : Prop := ∃ t, run n s = .next t

/-- The registers as INIT and reset leave them and ADV and IDLE keep them (10_state.md rules R21, R22): `mask` is the scan of
the stored polynomial, and the stored polynomial has bit 0 set, or all three registers are still 0. -/
def Register.wf {W : Nat} (r : Register W) : Bool :=
  decide (r.mask = maskOf r.polynomial) && (r.polynomial.getLsbD 0 || decide (r = Register.zero W))

/-- The invariant of a run: a positive width (00_scope.md rule R5) and, once a reset step has happened, registers as rule R21
says. Before it the registers are unspecified (rule R25). -/
def State.inv (s : State) : Bool := decide (1 ≤ s.width) && (!s.resetSeen || s.reg.wf)

end Sys2Proof.Machine
end

