-- ==== Sys2Proof/Certificates/Slice0/Obligations.lean ====
section
/-! DEFINITION. The statements for the provers. Every statement holds for every width `W` unless it says otherwise: the width
is the field `width` of the state, and a state is written out as `⟨W, registers, resetSeen, inputs⟩` where its width matters.
A stream of commands is a list of input tuples, the next one first. -/

open Sys2Proof Sys2Proof.Machine

/-! Words. -/

/-- 00_scope.md rule R8: the left shift by one is `(2 * v) mod 2^W`, bit by bit too, with its corner cases. -/
def Obligations.ShiftDoublesModuloTheWidth : Prop :=
  ∀ (W : Nat) (v : Word W),
    (shl1 v).toNat = 2 * v.toNat % 2 ^ W ∧
    (∀ i, 1 ≤ i → i ≤ W - 1 → (shl1 v).getLsbD i = v.getLsbD (i - 1)) ∧
    (shl1 v).getLsbD 0 = false ∧
    (v.toNat = 0 → (shl1 v).toNat = 0) ∧
    (1 ≤ W → v.toNat = 2 ^ (W - 1) → (shl1 v).toNat = 0) ∧
    (1 ≤ W → v.toNat = 2 ^ W - 1 → (shl1 v).toNat = 2 ^ W - 2) ∧
    (W = 1 → (shl1 v).toNat = 0)

/-- 40_initialize.md rule R62 and 43_sequence_properties.md rule R87: the mask is the highest set bit of the operand among
bits W-2 down to 1, and 0 if there is none; with the rules' own examples, and with what rule R62 says of a scan down to bit 0:
it would give another mask for the operands `1` and `(1 << (W-1)) | 1` alone, and no other bit or value of `data`. -/
def Obligations.MaskIsTheHighestScannedBit : Prop :=
  (∀ (W : Nat) (p : Word W),
    ((∀ i, 1 ≤ i → i ≤ W - 2 → p.getLsbD i = false) ∧ (maskOf p).toNat = 0) ∨
    (∃ k, 1 ≤ k ∧ k ≤ W - 2 ∧ p.getLsbD k = true ∧ (∀ j, k < j → j ≤ W - 2 → p.getLsbD j = false) ∧
      (maskOf p).toNat = 2 ^ k)) ∧
  (maskOf 0x19#8 = 0x10#8 ∧ maskOf 0x18#8 = 0x10#8 ∧ maskOf 0x01#8 = 0#8 ∧ maskOf 0x00#8 = 0#8 ∧ maskOf 0x80#8 = 0#8 ∧
    maskOf 0x81#8 = 0#8 ∧ maskOf 0x02#8 = 0x02#8 ∧ maskOf 0xFF#8 = 0x40#8 ∧ maskOf 0xC1#8 = 0x40#8) ∧
  (∀ W, W = 16 ∨ W = 32 ∨ W = 64 →
    maskOf (BitVec.ofNat W 0x80) = BitVec.ofNat W 0x80 ∧ maskOf (BitVec.ofNat W 0xFF) = BitVec.ofNat W 0x80) ∧
  (∀ (W : Nat) (p s : Word W), 2 ≤ W →
    (maskScan p 0 (W - 1) ≠ maskOf p ↔ p.toNat = 1 ∨ p.toNat = 2 ^ (W - 1) ||| 1) ∧
    ∀ n,
      genBit (p ||| 1#W) (maskScan p 0 (W - 1)) s n = seqBit p s n ∧
      genData (p ||| 1#W) (maskScan p 0 (W - 1)) s n = seqData p s n)

/-! The commands: results, frames, completion. -/

/-- 40_initialize.md rules R60, R63, R64: INIT completes for every pair of `W`-bit operands, in every state, and writes all
three registers; after it the output ports show what rule R60 lists. Nothing else changes. With rule R60's encoding, corner
cases of the mask, and worked example. -/
def Obligations.InitLoadsConfigurationAndSeed : Prop :=
  (∀ (W : Nat) (c : Command W), c.op = 0b10#2 → decode c = .init c.polyIn.toNat c.seedIn.toNat) ∧
  (∀ (s : State) (p q : Nat), p < 2 ^ s.width → q < 2 ^ s.width →
    ∃ r : Register s.width,
      exec (.init p q) s = .next ⟨s.width, r, s.resetSeen, s.inputs⟩ ∧
      r.polynomial.toNat = p ||| (1 % 2 ^ s.width) ∧
      r.mask = maskOf (BitVec.ofNat s.width p) ∧
      r.data.toNat = q ∧
      r.polyOut = r.polynomial ∧ r.maskOut = r.mask ∧ r.dataOut = r.data ∧
      r.bitOut = decide (2 * q % 2 ^ s.width &&& (maskOf (BitVec.ofNat s.width p)).toNat ≠ 0)) ∧
  (∀ W : Nat, 1 ≤ W →
    (maskOf (BitVec.ofNat W 0)).toNat = 0 ∧ (maskOf (BitVec.ofNat W 1)).toNat = 0 ∧
    (maskOf (BitVec.ofNat W (2 ^ (W - 1)))).toNat = 0 ∧
    (3 ≤ W → (maskOf (BitVec.ofNat W (2 ^ W - 1))).toNat = 2 ^ (W - 2))) ∧
  (decodeWord 8 0x21808 = .ok (.init 0x18 0x08) ∧
    ∀ (r : Register 8) (b : Bool) (ins : List (Input 8)),
      exec (.init 0x18 0x08) ⟨8, r, b, ins⟩ = .next ⟨8, ⟨0x19#8, 0x10#8, 0x08#8⟩, b, ins⟩)

/-- 40_initialize.md rule R61: bit 0 of the stored polynomial is 1 whatever the operand's was, and the other bits, bit `W-1`
included, are the operand's. -/
def Obligations.InitForcesBitZero : Prop :=
  (∀ (s : State) (p q : Nat), 1 ≤ s.width → p < 2 ^ s.width → q < 2 ^ s.width →
    ∃ r : Register s.width,
      exec (.init p q) s = .next ⟨s.width, r, s.resetSeen, s.inputs⟩ ∧
      r.polynomial.getLsbD 0 = true ∧
      (∀ i, 1 ≤ i → r.polynomial.getLsbD i = p.testBit i) ∧
      (p.testBit 0 = true → r.polynomial.toNat = p)) ∧
  (∀ (r : Register 8) (b : Bool) (ins : List (Input 8)) (q : Nat), q < 256 →
    ∃ r' : Register 8, exec (.init 0x18 q) ⟨8, r, b, ins⟩ = .next ⟨8, r', b, ins⟩ ∧ r'.polynomial = 0x19#8)

/-- 40_initialize.md rule R65: INIT always writes `mask`, so nothing of an earlier configuration survives it: it gives the
same next state from any two register contents, with mask 0 when the scan finds nothing. -/
def Obligations.InitOverwritesTheEarlierConfiguration : Prop :=
  ∀ (W : Nat) (r r' : Register W) (b : Bool) (ins : List (Input W)) (p q : Nat), p < 2 ^ W → q < 2 ^ W →
    ∃ t : Register W,
      exec (.init p q) ⟨W, r, b, ins⟩ = .next ⟨W, t, b, ins⟩ ∧
      exec (.init p q) ⟨W, r', b, ins⟩ = .next ⟨W, t, b, ins⟩ ∧
      t.mask = maskOf (BitVec.ofNat W p) ∧
      ((∀ i, 1 ≤ i → i ≤ W - 2 → p.testBit i = false) → t.mask.toNat = 0)

/-- 41_advance.md rule R70: ADV completes in every state; it shifts `data`, tests the mask bit of the shifted value, and XORs
the stored polynomial in when the test succeeds; the bit of the test is returned. Everything is said in numbers. With rule
R70's encoding. -/
def Obligations.AdvanceShiftsTestsAndXors : Prop :=
  (∀ (W : Nat) (r : Register W) (c : Command W) (rest : List (Input W)), c.op = 0b01#2 →
    decode c = .adv ∧ State.returnedBit ⟨W, r, true, ⟨false, c⟩ :: rest⟩ = some r.bitOut) ∧
  ∀ (s : State),
    ∃ d : Word s.width,
      exec .adv s = .next ⟨s.width, ⟨s.reg.polynomial, s.reg.mask, d⟩, s.resetSeen, s.inputs⟩ ∧
      (2 * s.reg.data.toNat % 2 ^ s.width &&& s.reg.mask.toNat ≠ 0 →
        s.reg.bitOut = true ∧ d.toNat = (2 * s.reg.data.toNat % 2 ^ s.width) ^^^ s.reg.polynomial.toNat) ∧
      (2 * s.reg.data.toNat % 2 ^ s.width &&& s.reg.mask.toNat = 0 →
        s.reg.bitOut = false ∧ d.toNat = 2 * s.reg.data.toNat % 2 ^ s.width)

/-- 42_idle_and_reserved.md rule R80: IDLE changes nothing, whatever is on the operand ports, and a stream of commands gives
the same outcome and returns the same bits as the stream with every IDLE removed. -/
def Obligations.IdleStepsCanBeRemoved : Prop :=
  (∀ s : State, exec .idle s = .next s) ∧
  (∀ (W : Nat) (c : Command W), c.op = 0b00#2 → decode c = .idle) ∧
  (∀ (W : Nat) (r : Register W) (ins rest : List (Input W)),
    let kept := ins.filter fun inp => inp.rst || decide (inp.cmd.op ≠ 0b00#2)
    run ins.length ⟨W, r, true, ins ++ rest⟩ = run kept.length ⟨W, r, true, kept ++ rest⟩ ∧
    bitsReturned ins.length ⟨W, r, true, ins ++ rest⟩ = bitsReturned kept.length ⟨W, r, true, kept ++ rest⟩)

/-- 41_advance.md rule R73 for ADV, and the same for the other commands: a command that answers a next state changes the three
registers at most, ADV changes `data` alone, IDLE changes none; the width, the stream and the power-up history stay. -/
def Obligations.CommandsChangeOnlyTheirRegisters : Prop :=
  ∀ (i : Instr) (s t : State), exec i s = .next t →
    ∃ r : Register s.width, t = ⟨s.width, r, s.resetSeen, s.inputs⟩ ∧
      (i = .idle → r = s.reg) ∧
      (i = .adv → r.polynomial = s.reg.polynomial ∧ r.mask = s.reg.mask)

/-- 42_idle_and_reserved.md rule R81 and 30_encoding.md rule R45: the reserved command is refused in every state; a step that
samples it with `rst = 0` has no result, and with `rst = 1` it is an ordinary reset step. -/
def Obligations.ReservedCommandIsRefused : Prop :=
  (∀ s : State, exec .reserved11 s = .refused .reservedCommand) ∧
  (∀ (W : Nat) (r : Register W) (b : Bool) (c : Command W) (rest : List (Input W)), c.op = 0b11#2 →
    decode c = .reserved11 ∧
    step ⟨W, r, true, ⟨false, c⟩ :: rest⟩ = .refused .reservedCommand ∧
    (∀ t, step ⟨W, r, b, ⟨false, c⟩ :: rest⟩ ≠ .next t) ∧
    step ⟨W, r, b, ⟨true, c⟩ :: rest⟩ = .next ⟨W, ⟨0#W, 0#W, 0#W⟩, true, rest⟩)

/-- 60_exceptions.md rules R100, R112, 41_advance.md rule R74: IDLE and ADV complete in every state, INIT for every pair of
operands, the degenerate ones of rule R112 among them; no command and no step faults. -/
def Obligations.CommandsAreTotalAndNeverFault : Prop :=
  (∀ s : State, (∃ t, exec .idle s = .next t) ∧ (∃ t, exec .adv s = .next t)) ∧
  (∀ (s : State) (p q : Nat), p < 2 ^ s.width → q < 2 ^ s.width → ∃ t, exec (.init p q) s = .next t) ∧
  (∀ (s : State) (p q : Nat), 1 ≤ s.width → q < 2 ^ s.width →
    p = 0 ∨ p = 1 ∨ p = 2 ^ (s.width - 1) ∨ p = 2 ^ (s.width - 1) ||| 1 →
    (∃ t, exec (.init p q) s = .next t) ∧ (∃ t, exec (.init p 0) s = .next t)) ∧
  (∀ (i : Instr) (s : State) (f : Fault), exec i s ≠ .fault f ∧ step s ≠ .fault f)

/-- The model's own stop (log entry 6): INIT is refused, with `operandTooWide`, exactly for a number that is no `W`-bit value;
no other command is refused under that name, and no command that the ports can carry decodes to such an INIT. -/
def Obligations.OnlyUnpresentableOperandsAreRefused : Prop :=
  (∀ (s : State) (p q : Nat), 2 ^ s.width ≤ p ∨ 2 ^ s.width ≤ q → exec (.init p q) s = .refused .operandTooWide) ∧
  (∀ (s : State) (p q : Nat) (why : Refusal), exec (.init p q) s = .refused why → 2 ^ s.width ≤ p ∨ 2 ^ s.width ≤ q) ∧
  (∀ (i : Instr) (s : State), exec i s = .refused .operandTooWide → ∃ p q, i = .init p q) ∧
  (∀ (W : Nat) (c : Command W), (decode c).wellFormed W = true)

/-- From 20_memory.md rule R33: INIT with the same operands again gives the same registers, whatever IDLE and ADV came between. -/
def Obligations.RepeatedInitRestartsTheSequence : Prop :=
  ∀ (W : Nat) (r : Register W) (p q : Nat) (between rest : List (Input W)), p < 2 ^ W → q < 2 ^ W →
    (∀ inp ∈ between, isIdleOrAdv inp = true) →
    let again : Input W := ⟨false, encode W (.init p q)⟩
    ∃ t : Register W,
      run 1 ⟨W, r, true, again :: (between ++ again :: rest)⟩ = .next ⟨W, t, true, between ++ again :: rest⟩ ∧
      run (between.length + 2) ⟨W, r, true, again :: (between ++ again :: rest)⟩ = .next ⟨W, t, true, rest⟩

/-! The step and reset. -/

/-- 70_reset_and_hazards.md rule R120 and 60_exceptions.md rule R102: a step with `rst = 1` zeroes the registers whatever else
is sampled, the reserved command included, from any state; a second one changes nothing more. -/
def Obligations.ResetWinsOverEveryCommand : Prop :=
  ∀ (W : Nat) (r : Register W) (b : Bool) (c c' : Command W) (rest : List (Input W)),
    step ⟨W, r, b, ⟨true, c⟩ :: rest⟩ = .next ⟨W, ⟨0#W, 0#W, 0#W⟩, true, rest⟩ ∧
    run 2 ⟨W, r, b, ⟨true, c⟩ :: ⟨true, c'⟩ :: rest⟩ = .next ⟨W, ⟨0#W, 0#W, 0#W⟩, true, rest⟩

/-- 10_state.md rule R20: after a reset step the three registers are 0 and so are the four outputs; the state the model calls
reset is such a state. -/
def Obligations.ResetLeavesThreeZeros : Prop :=
  (∀ (W : Nat) (r : Register W) (b : Bool) (c : Command W) (rest : List (Input W)),
    ∃ r' : Register W, step ⟨W, r, b, ⟨true, c⟩ :: rest⟩ = .next ⟨W, r', true, rest⟩ ∧
      r'.polynomial.toNat = 0 ∧ r'.mask.toNat = 0 ∧ r'.data.toNat = 0 ∧
      r'.bitOut = false ∧ r'.dataOut.toNat = 0 ∧ r'.maskOut.toNat = 0 ∧ r'.polyOut.toNat = 0) ∧
  State.reset.reg.polynomial.toNat = 0 ∧ State.reset.reg.mask.toNat = 0 ∧ State.reset.reg.data.toNat = 0

/-- A step runs the decoded command: with `rst = 0`, after a reset step, a step takes the sampled tuple off the stream and is
exec of the decoded command (70_reset_and_hazards.md rule R126). -/
def Obligations.StepRunsTheDecodedCommand : Prop :=
  ∀ (W : Nat) (r : Register W) (c : Command W) (rest : List (Input W)) (i : Instr), decode c = i →
    i.wellFormed W = true ∧ step ⟨W, r, true, ⟨false, c⟩ :: rest⟩ = exec i ⟨W, r, true, rest⟩

/-- 10_state.md rule R25: a run that does not begin with a reset step has no meaning, and a reset step leads from any register
contents, those at power-up among them, to the reset state. The form is the model's (log entry 4): `resetSeen` is false before the
first reset step, and the refusal is named `beforeReset`. -/
def Obligations.RunsBeginWithAReset : Prop :=
  ∀ (W : Nat) (r : Register W) (c : Command W) (rest : List (Input W)),
    step ⟨W, r, false, ⟨false, c⟩ :: rest⟩ = .refused .beforeReset ∧
    step ⟨W, r, false, ⟨true, c⟩ :: rest⟩ = .next (State.resetAt W rest) ∧
    step (State.powerOn W (⟨false, c⟩ :: rest)) = .refused .beforeReset ∧
    step (State.powerOn W (⟨true, c⟩ :: rest)) = .next (State.resetAt W rest)

/-- The model's own stop (log entry 3): when the host's stream has ended there is no further edge. -/
def Obligations.EmptyStreamEndsTheRun : Prop :=
  ∀ (W : Nat) (r : Register W) (b : Bool), step ⟨W, r, b, []⟩ = .refused .endOfStream

/-- 70_reset_and_hazards.md rule R126 and 20_memory.md rule R36: the run over a stream is the left fold of rule R126's step
function over its tuples, and stops by refusal exactly where that function has no result. -/
def Obligations.RunIsTheFoldOfTheStepFunction : Prop :=
  ∀ (W : Nat) (r : Register W) (ins rest : List (Input W)),
    run ins.length ⟨W, r, true, ins ++ rest⟩ =
      match ins.foldlM Register.next r with
      | some r' => .next ⟨W, r', true, rest⟩
      | none => .refused .reservedCommand

/-- 70_reset_and_hazards.md rule R128 (a), (b): a stream runs to its end exactly if the host begins with a reset step and never
drives `op = 11` with `rst = 0`. -/
def Obligations.RunCompletesExactlyIfTheHostObeys : Prop :=
  ∀ s : State, SafeFor s.inputs.length s ↔ s.hostObeys = true

/-- No step changes the width (00_scope.md rule R5). The rest is about the model's own fields: each step that answers a next
state takes exactly one tuple off the host's stream (log entry 2), so the stream was not empty (log entry 3), and leaves a run in
which a reset step has happened (log entry 4). -/
def Obligations.StepKeepsWidthAndTakesOneTuple : Prop :=
  ∀ s t : State, step s = .next t →
    t.width = s.width ∧ HEq t.inputs s.inputs.tail ∧ s.inputs ≠ [] ∧ t.resetSeen = true

/-- 41_advance.md rule R71: the bit an ADV returns is `bit_out` of the state before the step, `(shl1(data) & mask) != 0`; a
step whose command is not ADV returns no bit. -/
def Obligations.ReturnedBitIsBitOutBeforeTheStep : Prop :=
  ∀ (W : Nat) (r : Register W) (inp : Input W) (rest : List (Input W)),
    (r.bitOut = true ↔ 2 * r.data.toNat % 2 ^ W &&& r.mask.toNat ≠ 0) ∧
    (inp.rst = false → inp.cmd.op = 0b01#2 → State.returnedBit ⟨W, r, true, inp :: rest⟩ = some r.bitOut) ∧
    (inp.rst = true ∨ inp.cmd.op ≠ 0b01#2 → State.returnedBit ⟨W, r, true, inp :: rest⟩ = none)

/-- 41_advance.md rule R72: with `mask = 1 << k` the bit returned is bit `k-1` of `data` before the step, and the new `data` has
bit `k` equal to 0 whenever there was a hit. -/
def Obligations.TestedBitIsBelowTheMask : Prop :=
  ∀ (W k : Nat) (r : Register W) (b : Bool) (ins : List (Input W)),
    1 ≤ k → k ≤ W - 2 → r.mask = BitVec.ofNat W (2 ^ k) → r.polynomial.getLsbD k = true →
    r.bitOut = r.data.getLsbD (k - 1) ∧
    ∃ d : Word W, exec .adv ⟨W, r, b, ins⟩ = .next ⟨W, ⟨r.polynomial, r.mask, d⟩, b, ins⟩ ∧
      (r.bitOut = true → d.getLsbD k = false)

/-! Invariants. -/

/-- The invariant that `StepKeepsTheInvariant` is about holds after reset, at every positive width: there it says what rule R21
says of a block before any INIT. At power-up it holds too, but says only `1 ≤ W`, since rule R25 leaves the registers unspecified
and `State.inv` asks nothing of them before the first reset step (log entry 4). -/
def Obligations.InvariantHoldsAtReset : Prop :=
  State.reset.inv = true ∧
  (∀ W : Nat, (Register.zero W).wf = true) ∧
  ∀ (W : Nat) (ins : List (Input W)), 1 ≤ W → (State.resetAt W ins).inv = true ∧ (State.powerOn W ins).inv = true

/-- Every step keeps the invariant: once a reset step has happened, `mask` is the scan of the stored polynomial, and the
stored polynomial has bit 0 set or all three registers are 0 (10_state.md rules R21, R22). -/
def Obligations.StepKeepsTheInvariant : Prop :=
  ∀ s t : State, s.inv = true → step s = .next t → t.inv = true

/-- 10_state.md rule R21: after an INIT, and for as long as no INIT and no reset comes, (a) to (e) hold together; after a reset
and before any INIT, `polynomial` and `mask` are 0. -/
def Obligations.ConfigurationAfterInitStays : Prop :=
  (∀ (W : Nat) (r : Register W) (p q : Nat) (ins rest : List (Input W)),
    1 ≤ W → p < 2 ^ W → q < 2 ^ W → (∀ inp ∈ ins, keepsConfiguration inp = true ∧ permitted inp = true) →
    ∃ c : Register W,
      run (ins.length + 1) ⟨W, r, true, ⟨false, encode W (.init p q)⟩ :: (ins ++ rest)⟩ = .next ⟨W, c, true, rest⟩ ∧
      c.polynomial.toNat = p ||| 1 ∧ c.polynomial.getLsbD 0 = true ∧
      c.mask = maskOf (BitVec.ofNat W p) ∧
      (c.mask.toNat = 0 ∨
        ∃ k, 1 ≤ k ∧ k ≤ W - 2 ∧ c.mask.toNat = 2 ^ k ∧ c.polynomial.getLsbD k = true ∧
          ∀ j, k < j → j ≤ W - 2 → c.polynomial.getLsbD j = false) ∧
      (2 ≤ W → c.polynomial.getLsbD (W - 1) = p.testBit (W - 1)) ∧
      c.mask &&& c.polynomial = c.mask) ∧
  (∀ (W : Nat) (r : Register W) (c : Command W) (b : Bool) (ins rest : List (Input W)),
    (∀ inp ∈ ins, keepsConfiguration inp = true ∧ permitted inp = true) →
    ∃ t : Register W, run (ins.length + 1) ⟨W, r, b, ⟨true, c⟩ :: (ins ++ rest)⟩ = .next ⟨W, t, true, rest⟩ ∧
      t.polynomial.toNat = 0 ∧ t.mask.toNat = 0)

/-- 10_state.md rule R22: `polynomial` and `mask` change only in an INIT step or a reset step, and the scan cannot tell an
operand from the polynomial stored for it. -/
def Obligations.OnlyInitAndResetChangeTheConfiguration : Prop :=
  (∀ (W : Nat) (r : Register W) (b : Bool) (inp : Input W) (rest : List (Input W)) (t : State),
    step ⟨W, r, b, inp :: rest⟩ = .next t → inp.rst = false → inp.cmd.op ≠ 0b10#2 →
    ∃ d : Word W, t = ⟨W, ⟨r.polynomial, r.mask, d⟩, b, rest⟩) ∧
  (∀ (W : Nat) (p : Word W), maskOf (p ||| 1#W) = maskOf p) ∧
  (∀ (W : Nat) (r r' : Register W) (p q q' : Nat), p < 2 ^ W → q < 2 ^ W → q' < 2 ^ W →
    ∃ t t' : Register W,
      exec (.init p q) ⟨W, r, true, []⟩ = .next ⟨W, t, true, []⟩ ∧
      exec (.init p q') ⟨W, r', true, []⟩ = .next ⟨W, t', true, []⟩ ∧
      t.mask = t'.mask ∧ t.mask = maskOf t.polynomial)

/-- 30_encoding.md rule R44: two streams with the same commands, and the same operands wherever the command is INIT, have the
same outcome and return the same bits, whatever is on the operand ports elsewhere; the canonical form drives them to 0. -/
def Obligations.OperandPortsAreIgnoredUnlessInit : Prop :=
  (∀ (W : Nat) (r : Register W) (ins ins' : List (Input W)),
    List.Forall₂ (fun a b => a.rst = b.rst ∧ a.cmd.op = b.cmd.op ∧ (a.cmd.op = 0b10#2 → a.cmd = b.cmd)) ins ins' →
    run ins.length ⟨W, r, true, ins⟩ = run ins'.length ⟨W, r, true, ins'⟩ ∧
    bitsReturned ins.length ⟨W, r, true, ins⟩ = bitsReturned ins'.length ⟨W, r, true, ins'⟩) ∧
  (∀ (W : Nat) (i : Instr), (encode W i).op ≠ 0b10#2 → (encode W i).polyIn = 0#W ∧ (encode W i).seedIn = 0#W)

/-! Encodings. -/

/-- 30_encoding.md rule R42: the operation is selected by `op` alone, and every value of `op` is listed. -/
def Obligations.OpcodeMapIsComplete : Prop :=
  ∀ (W : Nat) (p q : Word W),
    decode ⟨0b00#2, p, q⟩ = .idle ∧ decode ⟨0b01#2, p, q⟩ = .adv ∧
    decode ⟨0b10#2, p, q⟩ = .init p.toNat q.toNat ∧ decode ⟨0b11#2, p, q⟩ = .reserved11 ∧
    ∀ op : Opcode, op = 0b00#2 ∨ op = 0b01#2 ∨ op = 0b10#2 ∨ op = 0b11#2

/-- Decode and encode agree: for every width and every well-formed instruction, the command that the encoder gives decodes to
the instruction again, and so does its command word. -/
def Obligations.DecodeOfEncodeIsTheInstruction : Prop :=
  ∀ (W : Nat) (i : Instr), i.wellFormed W = true →
    decode (encode W i) = i ∧ decodeWord W (encodeWord W i) = .ok i

/-- 30_encoding.md rule R41: the fields of the command word `CW = op ‖ poly_in ‖ seed_in` stand where the rule's table puts
them, and the word with its fields read back is the command again. -/
def Obligations.CommandWordFieldsStandInPlace : Prop :=
  ∀ (W : Nat) (c : Command W),
    c.toWord.toNat = c.op.toNat * 2 ^ (2 * W) + c.polyIn.toNat * 2 ^ W + c.seedIn.toNat ∧
    Command.ofWord c.toWord = c ∧
    (∀ cw : BitVec (2 + W + W), (Command.ofWord cw).toWord = cw) ∧
    encode W (decode c) = c.canonical ∧
    (encodeWord 8 (.init 0x19 0x01) = 0x21901 ∧ encodeWord 8 .adv = 0x10000 ∧ encodeWord 8 .idle = 0x00000)

/-- The command words that 30_encoding.md rule R41 and the programs P1 to P5 of 95_test_vectors.md write out decode to the
commands they stand for there, and so does `0x30000`, the word of the reserved row in spec/opcode_table.json ("cw_w8_match"). Any
number with a bit at or above position `2 + 2W` is rejected. -/
def Obligations.WrittenCommandWordsDecode : Prop :=
  (decodeWord 8 0x21901 = .ok (.init 0x19 0x01) ∧ decodeWord 8 0x21808 = .ok (.init 0x18 0x08) ∧
    decodeWord 8 0x20181 = .ok (.init 0x01 0x81) ∧ decodeWord 8 0x10000 = .ok .adv ∧ decodeWord 8 0x00000 = .ok .idle ∧
    decodeWord 8 0x30000 = .ok .reserved11) ∧
  (decodeWord 16 0x21021ACE1 = .ok (.init 0x1021 0xACE1) ∧ decodeWord 16 0x100000000 = .ok .adv ∧
    decodeWord 16 0x000000000 = .ok .idle) ∧
  (decodeWord 32 0x28000005700000001 = .ok (.init 0x80000057 0x00000001) ∧
    decodeWord 32 0x10000000000000000 = .ok .adv) ∧
  (decodeWord 64 0x240000000000000012000000000000000 = .ok (.init 0x4000000000000001 0x2000000000000000) ∧
    decodeWord 64 0x2FFFFFFFFFFFFFFFFFFFFFFFFFFFFFFFF = .ok (.init 0xFFFFFFFFFFFFFFFF 0xFFFFFFFFFFFFFFFF) ∧
    decodeWord 64 0x100000000000000000000000000000000 = .ok .adv) ∧
  (∀ W n : Nat, 2 ^ (2 + 2 * W) ≤ n → decodeWord W n = .error .wordTooWide)

/-- 30_encoding.md rules R48, R49: the lines RESET, IDLE, ADV and INIT stand for one tuple each, as rule R48 writes them, and each
pseudo-command has the expansion that rule R49 gives. What a RESET line drives beside `rst` is left open here, as in the rule. -/
def Obligations.PseudoCommandsExpand : Prop :=
  ∀ (W n p q : Nat),
    (∃ c : Command W, TraceCommand.expand W .reset = .ok [⟨true, c⟩]) ∧
    TraceCommand.expand W .idle = .ok [⟨false, 0b00#2, 0#W, 0#W⟩] ∧
    TraceCommand.expand W .adv = .ok [⟨false, 0b01#2, 0#W, 0#W⟩] ∧
    (p < 2 ^ W → q < 2 ^ W →
      TraceCommand.expand W (.init p q) = .ok [⟨false, 0b10#2, BitVec.ofNat W p, BitVec.ofNat W q⟩]) ∧
    TraceCommand.expand W (.advn n) = .ok (List.replicate n ⟨false, 0b01#2, 0#W, 0#W⟩) ∧
    TraceCommand.expand W (.idlen n) = .ok (List.replicate n ⟨false, 0b00#2, 0#W, 0#W⟩) ∧
    TraceCommand.expand W (.reinit p q) = TraceCommand.expand W (.init p q)

/-- From 30_encoding.md rule R48: a literal that does not fit in `W` bits is an error of the trace, not truncated. -/
def Obligations.WideLiteralsAreTraceErrors : Prop :=
  ∀ (W p q : Nat), 2 ^ W ≤ p ∨ 2 ^ W ≤ q → TraceCommand.expand W (.init p q) = .error .literalTooWide

/-! Sequences of commands. -/

/-- 43_sequence_properties.md rule R86: `INIT p, s` followed by a stream of ADV and IDLE with `N` ADV returns `b_1, ..., b_N`
in that order and ends with the registers `(P, m, d_N)`. -/
def Obligations.InitThenAdvancesGiveTheSequence : Prop :=
  ∀ (W : Nat) (r : Register W) (p s : Word W) (ins rest : List (Input W)), (∀ inp ∈ ins, isIdleOrAdv inp = true) →
    let start : State := ⟨W, r, true, ⟨false, 0b10#2, p, s⟩ :: (ins ++ rest)⟩
    run (ins.length + 1) start =
      .next ⟨W, ⟨p ||| 1#W, maskOf p, seqData p s (ins.countP isAdv)⟩, true, rest⟩ ∧
    bitsReturned (ins.length + 1) start = seqBits p s (ins.countP isAdv)

/-- 43_sequence_properties.md rule R85: two runs that load the same operands and then drive the same number of ADV return the
same bits and end in the same registers, whatever the registers and the streams before, the IDLE steps among the ADV, and the
values on the operand ports. -/
def Obligations.OutputIsAFunctionOfOperandsAndCount : Prop :=
  ∀ (W : Nat) (r r' : Register W) (p q : Word W) (before before' ins ins' : List (Input W)),
    (∀ inp ∈ before, permitted inp = true) → (∀ inp ∈ before', permitted inp = true) →
    (∀ inp ∈ ins, isIdleOrAdv inp = true) → (∀ inp ∈ ins', isIdleOrAdv inp = true) →
    ins.countP isAdv = ins'.countP isAdv →
    ∃ (u u' t : Register W),
      let load : Input W := ⟨false, 0b10#2, p, q⟩
      run before.length ⟨W, r, true, before ++ load :: ins⟩ = .next ⟨W, u, true, load :: ins⟩ ∧
      run before'.length ⟨W, r', true, before' ++ load :: ins'⟩ = .next ⟨W, u', true, load :: ins'⟩ ∧
      run (ins.length + 1) ⟨W, u, true, load :: ins⟩ = .next ⟨W, t, true, []⟩ ∧
      run (ins'.length + 1) ⟨W, u', true, load :: ins'⟩ = .next ⟨W, t, true, []⟩ ∧
      bitsReturned (ins.length + 1) ⟨W, u, true, load :: ins⟩ =
        bitsReturned (ins'.length + 1) ⟨W, u', true, load :: ins'⟩

/-- 43_sequence_properties.md rule R88: the mask is 0 for the operands the rule lists and no others; with mask 0 every ADV
returns 0 and `data` is only shifted, `d_n = (s * 2^n) mod 2^W`, and is 0 from step `W` on. -/
def Obligations.DegenerateMaskOnlyShifts : Prop :=
  (∀ (W : Nat) (p : Word W), 1 ≤ W →
    (maskOf p = 0#W ↔
      W < 3 ∨ p.toNat = 0 ∨ p.toNat = 1 ∨ p.toNat = 2 ^ (W - 1) ∨ p.toNat = 2 ^ (W - 1) ||| 1)) ∧
  (∀ (W n : Nat) (P s : Word W) (noise : Nat → Command W) (rest : List (Input W)),
    (∀ i, (noise i).op = 0b01#2) →
    let start : State := ⟨W, ⟨P, 0#W, s⟩, true, (List.range n).map (fun i => ⟨false, noise i⟩) ++ rest⟩
    ∃ d : Word W,
      run n start = .next ⟨W, ⟨P, 0#W, d⟩, true, rest⟩ ∧
      bitsReturned n start = List.replicate n false ∧
      d.toNat = s.toNat * 2 ^ n % 2 ^ W ∧ (W ≤ n → d.toNat = 0))

/-- 43_sequence_properties.md rule R89: `data = 0` is a fixed point of ADV for every polynomial and mask; it returns 0, and
nothing but an INIT makes `data` differ from 0 again. -/
def Obligations.ZeroDataStaysZero : Prop :=
  ∀ (W : Nat) (P m : Word W),
    (∀ (b : Bool) (ins : List (Input W)), exec .adv ⟨W, ⟨P, m, 0#W⟩, b, ins⟩ = .next ⟨W, ⟨P, m, 0#W⟩, b, ins⟩) ∧
    (∀ (p : Word W) (n : Nat), seqBit p 0#W n = false ∧ seqData p 0#W n = 0#W) ∧
    (∀ ins rest : List (Input W), (∀ inp ∈ ins, permitted inp = true ∧ (inp.rst = true ∨ inp.cmd.op ≠ 0b10#2)) →
      ∃ P' m' : Word W,
        run ins.length ⟨W, ⟨P, m, 0#W⟩, true, ins ++ rest⟩ = .next ⟨W, ⟨P', m', 0#W⟩, true, rest⟩ ∧
        ∀ bit ∈ bitsReturned ins.length ⟨W, ⟨P, m, 0#W⟩, true, ins ++ rest⟩, bit = false)

/-- 70_reset_and_hazards.md rule R124: between a reset step and the first INIT, ADV returns 0 and leaves `data = 0`, and IDLE
changes nothing. -/
def Obligations.CommandsBeforeTheFirstInitAreInert : Prop :=
  ∀ (W : Nat) (ins rest : List (Input W)), (∀ inp ∈ ins, isIdleOrAdv inp = true) →
    run ins.length (State.resetAt W (ins ++ rest)) = .next (State.resetAt W rest) ∧
    bitsReturned ins.length (State.resetAt W (ins ++ rest)) = List.replicate (ins.countP isAdv) false

/-- 43_sequence_properties.md rule R90: on a step where feedback triggers, the new `data` differs from the shifted seed by
exactly the bits of the stored polynomial; with the rule's own instance. -/
def Obligations.FeedbackXorsTheStoredPolynomial : Prop :=
  (∀ (W : Nat) (r : Register W) (p s : Word W) (c : Command W), c.op = 0b01#2 →
    2 * s.toNat % 2 ^ W &&& (maskOf p).toNat ≠ 0 →
    ∃ d : Word W,
      run 2 ⟨W, r, true, [⟨false, 0b10#2, p, s⟩, ⟨false, c⟩]⟩ = .next ⟨W, ⟨p ||| 1#W, maskOf p, d⟩, true, []⟩ ∧
      bitsReturned 2 ⟨W, r, true, [⟨false, 0b10#2, p, s⟩, ⟨false, c⟩]⟩ = [true] ∧
      shl1 s ^^^ d = p ||| 1#W) ∧
  (∀ r : Register 8,
    run 1 ⟨8, r, true, [⟨false, 0b10#2, 0x18#8, 0x08#8⟩, ⟨false, 0b01#2, 0#8, 0#8⟩]⟩ =
      .next ⟨8, ⟨0x19#8, 0x10#8, 0x08#8⟩, true, [⟨false, 0b01#2, 0#8, 0#8⟩]⟩ ∧
    run 2 ⟨8, r, true, [⟨false, 0b10#2, 0x18#8, 0x08#8⟩, ⟨false, 0b01#2, 0#8, 0#8⟩]⟩ =
      .next ⟨8, ⟨0x19#8, 0x10#8, 0x09#8⟩, true, []⟩ ∧
    bitsReturned 2 ⟨8, r, true, [⟨false, 0b10#2, 0x18#8, 0x08#8⟩, ⟨false, 0b01#2, 0#8, 0#8⟩]⟩ = [true])

/-- 43_sequence_properties.md rule R91: with `mask = 1 << k`, bit `k` is 0 after every ADV, the bits above it only move upward,
bit `W-1` also takes the polynomial's top bit at a hit, and whatever the seed held at or above bit `k` is shifted out without
ever having influenced a returned bit: a seed with the same bits below `k` gives the same bits. -/
def Obligations.BitsAboveTheMaskDrain : Prop :=
  ∀ (W k : Nat) (p s : Word W), 1 ≤ k → k ≤ W - 2 → (maskOf p).toNat = 2 ^ k →
    (∀ s' : Word W, s'.toNat % 2 ^ k = s.toNat % 2 ^ k → ∀ n, seqBit p s' n = seqBit p s n) ∧
    ∀ n,
      (seqData p s (n + 1)).getLsbD k = false ∧
      (∀ j, k < j → j ≤ W - 2 → (seqData p s (n + 1)).getLsbD j = (seqData p s n).getLsbD (j - 1)) ∧
      (seqData p s (n + 1)).getLsbD (W - 1) =
        ((seqData p s n).getLsbD (W - 2) ^^ (seqBit p s n && p.getLsbD (W - 1))) ∧
      (p.getLsbD (W - 1) = false →
        (∀ j, k ≤ j → j ≤ min (k + n) (W - 1) → (seqData p s (n + 1)).getLsbD j = false) ∧
        (W - k ≤ n + 1 → (seqData p s (n + 1)).toNat < 2 ^ k)) ∧
      (p.getLsbD (W - 1) = true →
        (∀ j, k ≤ j → j ≤ min (k + n) (W - 2) → (seqData p s (n + 1)).getLsbD j = false) ∧
        (W - k ≤ n + 1 → (seqData p s (n + 1)).getLsbD (W - 1) = seqBit p s n))

/-- 43_sequence_properties.md rule R92: the low `k` bits of `data` evolve by themselves as a `k`-bit Galois LFSR whose bits are
the returned ones, so that bits and low bits depend on nothing but `k` and the low `k` bits of polynomial and seed, at any
width; in particular operands that differ only in bit `W-1` give the same bits and the same `data[W-2:0]`. -/
def Obligations.OnlyTheLowBitsMatter : Prop :=
  (∀ (W k : Nat) (p s : Word W), 1 ≤ k → k ≤ W - 2 → (maskOf p).toNat = 2 ^ k → ∀ n,
    seqBit p s n = ((seqData p s n).toNat % 2 ^ k).testBit (k - 1) ∧
    (seqData p s (n + 1)).toNat % 2 ^ k =
      (2 * ((seqData p s n).toNat % 2 ^ k) % 2 ^ k) ^^^ (if seqBit p s n then (p ||| 1#W).toNat % 2 ^ k else 0)) ∧
  (∀ (W W' k : Nat) (p s : Word W) (p' s' : Word W'),
    1 ≤ k → k ≤ W - 2 → k ≤ W' - 2 → (maskOf p).toNat = 2 ^ k → (maskOf p').toNat = 2 ^ k →
    (p ||| 1#W).toNat % 2 ^ k = (p' ||| 1#W').toNat % 2 ^ k → s.toNat % 2 ^ k = s'.toNat % 2 ^ k → ∀ n,
    seqBit p s n = seqBit p' s' n ∧ (seqData p s n).toNat % 2 ^ k = (seqData p' s' n).toNat % 2 ^ k) ∧
  (∀ (W : Nat) (p p' s : Word W), (∀ i, i < W - 1 → p.getLsbD i = p'.getLsbD i) → ∀ n,
    seqBit p s n = seqBit p' s n ∧
    (seqData p s n).toNat % 2 ^ (W - 1) = (seqData p' s n).toNat % 2 ^ (W - 1))

/-- 43_sequence_properties.md rule R94: a polynomial whose bits fit below the top bit of the narrower of two instances gives
the same mask, the same stored polynomial, the same bits without end, and the same `data mod 2^(W-1)`, in both; the seed of the
narrower one may even be truncated. A polynomial with that top bit set can give other masks and other bits,
as in the rule's example, whose sequences differ at the second bit. -/
def Obligations.WidthsAgreeBelowTheNarrowTopBit : Prop :=
  (∀ (W W' p s : Nat), 1 ≤ W → W ≤ W' → p < 2 ^ (W - 1) →
    (maskOf (BitVec.ofNat W p)).toNat = (maskOf (BitVec.ofNat W' p)).toNat ∧
    (BitVec.ofNat W p ||| 1#W).toNat = (BitVec.ofNat W' p ||| 1#W').toNat ∧
    ∀ n,
      seqBit (BitVec.ofNat W p) (BitVec.ofNat W s) n = seqBit (BitVec.ofNat W' p) (BitVec.ofNat W' s) n ∧
      (seqData (BitVec.ofNat W p) (BitVec.ofNat W s) n).toNat % 2 ^ (W - 1) =
        (seqData (BitVec.ofNat W' p) (BitVec.ofNat W' s) n).toNat % 2 ^ (W - 1)) ∧
  (maskOf 0x99#8 = 0x10#8 ∧ maskOf 0x99#16 = 0x80#16 ∧ maskOf 0x99#32 = 0x80#32 ∧
    seqBits 0x99#8 0x5A#8 16 =
      [true, true, false, false, true, false, false, false, true, true, true, true, false, true, false, true] ∧
    seqBits 0x99#16 0x5A#16 16 = (List.range 16).map (fun n => decide (n % 2 = 0)) ∧
    seqBits 0x99#32 0x5A#32 16 = (List.range 16).map (fun n => decide (n % 2 = 0)))

/-- 43_sequence_properties.md rule R95: if the scan ran down to bit 0, no returned bit and no value of `data` would differ, and
the mask would differ only for operands whose bits W-2 down to 1 are 0 and whose bit 0 is 1, where it would be 1. -/
def Obligations.LowerScanBoundIsUnobservable : Prop :=
  ∀ (W : Nat) (p s : Word W),
    (∀ n,
      genBit (p ||| 1#W) (maskScan p 0 (W - 1)) s n = seqBit p s n ∧
      genData (p ||| 1#W) (maskScan p 0 (W - 1)) s n = seqData p s n) ∧
    (2 ≤ W →
      (maskScan p 0 (W - 1) ≠ maskOf p ↔ (∀ i, 1 ≤ i → i ≤ W - 2 → p.getLsbD i = false) ∧ p.getLsbD 0 = true) ∧
      (maskScan p 0 (W - 1) ≠ maskOf p → maskScan p 0 (W - 1) = 1#W))

/-- The instances of 43_sequence_properties.md rule R93: with `0x19` and with `0x13` at `W = 8`, from every seed 1 to 15, the
values `d_0` to `d_14` are 1 to 15, each once, and `d_15` is the seed. -/
def Obligations.DegreeFourExamplesHavePeriodFifteen : Prop :=
  ∀ p, p = 0x19#8 ∨ p = 0x13#8 → ∀ s : Nat, 1 ≤ s → s ≤ 15 →
    (∀ v : Nat, 1 ≤ v → v ≤ 15 → ∃ n, n < 15 ∧ (seqData p (BitVec.ofNat 8 s) n).toNat = v) ∧
    (seqData p (BitVec.ofNat 8 s) 15).toNat = s

/-- The low `k` bits of `data` run through a pure cycle: they come back to where they started within `2^k - 1` steps, and a nonzero
value never becomes 0. It follows from 43_sequence_properties.md rule R92 and the forced bit 0 (40_initialize.md rule R61). Rule
R96 says it in the language of polynomials, and the spec marks that rule "from general knowledge, not in source". -/
def Obligations.LowBitsRunThroughAPureCycle : Prop :=
  ∀ (W k : Nat) (p s : Word W), 1 ≤ k → k ≤ W - 2 → (maskOf p).toNat = 2 ^ k →
    (∃ n, 1 ≤ n ∧ n ≤ 2 ^ k - 1 ∧ (seqData p s n).toNat % 2 ^ k = s.toNat % 2 ^ k) ∧
    (s.toNat % 2 ^ k ≠ 0 → ∀ n, (seqData p s n).toNat % 2 ^ k ≠ 0)
end

