-- ==== Sys2Proof/Laws/Encoding.lean ====
section
/-! SUPPORT. Small facts about the command tuple. -/

namespace Sys2Proof

/-- Every command decodes to a well-formed instruction of its width (30_encoding.md rule R43). -/
theorem decode_wellFormed {W : Nat} (c : Command W) : (decode c).wellFormed W = true := by
  unfold decode
  split
  · rfl
  · split
    · rfl
    · split
      · simp [Instr.wellFormed, fitsIn, BitVec.isLt]
      · rfl

/-- Every value of `op` is one of the four of 30_encoding.md rule R42. -/
theorem opcode_cases : ∀ op : Opcode, op = 0b00#2 ∨ op = 0b01#2 ∨ op = 0b10#2 ∨ op = 0b11#2 := by decide

theorem encode_init_op (W p d : Nat) : (encode W (.init p d)).op = opInit := rfl

end Sys2Proof
end

