-- ==== Sys2Proof/Laws/Ops.lean ====
section
/-! SUPPORT. What each shared operation does, said once: the shift, the mask scan, the test, the operand, the registers. -/

namespace Sys2Proof.Machine

/-- The shift as arithmetic (00_scope.md rule R8). -/
theorem shl1_toNat {W : Nat} (v : Word W) : (shl1 v).toNat = 2 * v.toNat % 2 ^ W := by
  simp [shl1, BitVec.toNat_shiftLeft, Nat.shiftLeft_eq, Nat.mul_comm]

/-- The shift bit by bit (00_scope.md rule R8). -/
theorem getLsbD_shl1 {W : Nat} (v : Word W) (i : Nat) :
    (shl1 v).getLsbD i = (decide (1 ≤ i) && decide (i < W) && v.getLsbD (i - 1)) := by
  simp only [shl1, BitVec.getLsbD_shiftLeft]
  rcases i with _ | i <;> simp

@[simp] theorem shl1_zero {W : Nat} : shl1 (0#W) = 0#W := by simp [shl1]

theorem getLsbD_bitAt (W i j : Nat) : (bitAt W i).getLsbD j = (decide (i < W) && decide (i = j)) := by
  simp [bitAt, BitVec.getLsbD_twoPow]

/-- The value of the single-bit word `1 << i`. -/
theorem bitAt_eq_ofNat (W i : Nat) : bitAt W i = BitVec.ofNat W (2 ^ i) := by
  rw [bitAt, ← BitVec.toNat_inj]
  simp only [BitVec.toNat_twoPow, BitVec.toNat_ofNat]

theorem bitAt_toNat {W k : Nat} (h : k < W) : (bitAt W k).toNat = 2 ^ k := by
  rw [bitAt_eq_ofNat, BitVec.toNat_ofNat, Nat.mod_eq_of_lt (Nat.pow_lt_pow_right (by omega) h)]

/-- A scan over `n` positions finds nothing, or answers the highest set bit among them. -/
theorem maskScan_cases {W : Nat} (p : Word W) (lo n : Nat) :
    (maskScan p lo n = 0#W ∧ ∀ i, lo ≤ i → i < lo + n → p.getLsbD i = false) ∨
    (∃ k, lo ≤ k ∧ k < lo + n ∧ p.getLsbD k = true ∧ (∀ j, k < j → j < lo + n → p.getLsbD j = false) ∧
      maskScan p lo n = bitAt W k) := by
  induction n with
  | zero => exact .inl ⟨rfl, fun i h h' => by omega⟩
  | succ n ih =>
    by_cases hb : p.getLsbD (lo + n) = true
    · exact .inr ⟨lo + n, by omega, by omega, hb, fun j h h' => by omega, by simp [maskScan, hb]⟩
    · have hb : p.getLsbD (lo + n) = false := by simpa using hb
      have hs : maskScan p lo (n + 1) = maskScan p lo n := by simp [maskScan, hb]
      rw [hs]
      obtain ⟨h0, hz⟩ | ⟨k, hlo, hk, hp, hz, hm⟩ := ih
      · refine .inl ⟨h0, fun i h h' => ?_⟩
        rcases Nat.lt_or_ge i (lo + n) with h'' | h''
        · exact hz i h h''
        · rwa [show i = lo + n by omega]
      · refine .inr ⟨k, hlo, by omega, hp, fun j h h' => ?_, hm⟩
        rcases Nat.lt_or_ge j (lo + n) with h'' | h''
        · exact hz j h h''
        · rwa [show j = lo + n by omega]

/-- Two words that agree on the scanned positions have the same scan. -/
theorem maskScan_congr {W : Nat} (p q : Word W) (lo n : Nat)
    (h : ∀ i, lo ≤ i → i < lo + n → p.getLsbD i = q.getLsbD i) : maskScan p lo n = maskScan q lo n := by
  induction n with
  | zero => rfl
  | succ n ih =>
    simp only [maskScan, h (lo + n) (by omega) (by omega)]
    rw [ih fun i hi hi' => h i hi (by omega)]

/-- The test of ADV is a test of one bit when the mask is a single bit (41_advance.md rule R72). -/
theorem hits_bitAt {W : Nat} (d : Word W) (k : Nat) (hk : k < W) : hits d (bitAt W k) = (shl1 d).getLsbD k := by
  cases hb : (shl1 d).getLsbD k with
  | true =>
    have hne : shl1 d &&& bitAt W k ≠ 0#W := fun h0 => by
      have h1 := congrArg (fun w => w.getLsbD k) h0
      simp only [BitVec.getLsbD_and, getLsbD_bitAt, hb, hk] at h1
      simp at h1
    simp [hits, hne]
  | false =>
    have h0 : shl1 d &&& bitAt W k = 0#W := by
      apply BitVec.eq_of_getLsbD_eq
      intro i _
      simp only [BitVec.getLsbD_and, getLsbD_bitAt, BitVec.getLsbD_zero]
      by_cases hik : k = i
      · subst hik; simp [hb]
      · simp [hik]
    simp [hits, h0]

@[simp] theorem hits_zero_mask {W : Nat} (d : Word W) : hits d (0#W) = false := by simp [hits]
@[simp] theorem hits_zero_data {W : Nat} (m : Word W) : hits (0#W) m = false := by simp [hits]

@[simp] theorem Register.advance_polynomial {W : Nat} (r : Register W) : r.advance.polynomial = r.polynomial := rfl
@[simp] theorem Register.advance_mask {W : Nat} (r : Register W) : r.advance.mask = r.mask := rfl
theorem Register.advance_data {W : Nat} (r : Register W) :
    r.advance.data = if r.bitOut then shl1 r.data ^^^ r.polynomial else shl1 r.data := rfl
@[simp] theorem Register.load_polynomial {W : Nat} (p d : Word W) : (Register.load p d).polynomial = p ||| 1#W := rfl
@[simp] theorem Register.load_mask {W : Nat} (p d : Word W) : (Register.load p d).mask = maskOf p := rfl
@[simp] theorem Register.load_data {W : Nat} (p d : Word W) : (Register.load p d).data = d := rfl

/-- `bit_out` as arithmetic (10_state.md rule R16). -/
theorem Register.bitOut_eq_decide {W : Nat} (r : Register W) :
    r.bitOut = decide (2 * r.data.toNat % 2 ^ W &&& r.mask.toNat ≠ 0) := by
  have h : (shl1 r.data &&& r.mask ≠ 0#W) = ((shl1 r.data &&& r.mask).toNat ≠ 0) := by
    simp only [ne_eq, ← BitVec.toNat_inj]; simp
  simp only [Register.bitOut, hits, ← shl1_toNat, ← BitVec.toNat_and, h]

/-- `n` advances of a configuration are the generated sequence. -/
theorem genData_succ {W : Nat} (P m d : Word W) (n : Nat) :
    genData P m d (n + 1) = (Register.advance ⟨P, m, genData P m d n⟩).data := by
  simp [genData, Register.advance, hits]

/-- The sequence after one ADV is the sequence, one value later. -/
theorem genData_advance {W : Nat} (r : Register W) (n : Nat) :
    genData r.polynomial r.mask r.advance.data n = genData r.polynomial r.mask r.data (n + 1) := by
  induction n with
  | zero => rw [genData_succ]; rfl
  | succ n ih => rw [genData_succ, ih, ← genData_succ]

theorem genBit_eq_bitOut {W : Nat} (P m d : Word W) (n : Nat) :
    genBit P m d n = Register.bitOut ⟨P, m, genData P m d n⟩ := rfl

theorem operand_of_lt {W v : Nat} (h : v < 2 ^ W) : operand W v = some (BitVec.ofNat W v) := by
  simp [operand, fitsIn, h]

theorem operand_of_le {W v : Nat} (h : 2 ^ W ≤ v) : operand W v = none := by
  simp [operand, fitsIn, Nat.not_lt.mpr h]

@[simp] theorem operand_toNat {W : Nat} (v : Word W) : operand W v.toNat = some v := by
  simp [operand, fitsIn, v.isLt]

end Sys2Proof.Machine
end

