-- ==== Sys2Proof/Laws/PerInstr.lean ====
section
/-! SUPPORT. Statements for all instructions, one lemma per constructor. -/

namespace Sys2Proof.Laws

/-- The encoder's command is in canonical form: operand ports that the command ignores are driven to 0
(30_encoding.md rule R44). -/
def EncodesCanonically.Statement (i : Instr) : Prop := ∀ W, (encode W i).canonical = encode W i

theorem EncodesCanonically.idle : EncodesCanonically.Statement .idle := fun _ => rfl
theorem EncodesCanonically.adv : EncodesCanonically.Statement .adv := fun _ => rfl
theorem EncodesCanonically.init (p d : Nat) : EncodesCanonically.Statement (.init p d) := fun _ => rfl
theorem EncodesCanonically.reserved11 : EncodesCanonically.Statement .reserved11 := fun _ => rfl

end Sys2Proof.Laws
end

