-- ==== Sys2Proof/Laws/State.lean ====
section
/-! SUPPORT. One lemma per field per update of State, so that no later proof unfolds an update. -/

namespace Sys2Proof.Machine

section
variable (s : State) (r : Register s.width) (c : Command s.width)

@[simp] theorem State.withReg_width : (s.withReg r).width = s.width := rfl
@[simp] theorem State.withReg_reg : (s.withReg r).reg = r := rfl
@[simp] theorem State.withReg_resetSeen : (s.withReg r).resetSeen = s.resetSeen := rfl
@[simp] theorem State.withReg_inputs : (s.withReg r).inputs = s.inputs := rfl

@[simp] theorem State.consumed_width : s.consumed.width = s.width := rfl
@[simp] theorem State.consumed_reg : s.consumed.reg = s.reg := rfl
@[simp] theorem State.consumed_resetSeen : s.consumed.resetSeen = s.resetSeen := rfl
@[simp] theorem State.consumed_inputs : s.consumed.inputs = s.inputs.tail := rfl

@[simp] theorem State.takeReset_width : s.takeReset.width = s.width := rfl
@[simp] theorem State.takeReset_reg : s.takeReset.reg = Register.zero s.width := rfl
@[simp] theorem State.takeReset_resetSeen : s.takeReset.resetSeen = true := rfl
@[simp] theorem State.takeReset_inputs : s.takeReset.inputs = s.inputs := rfl

@[simp] theorem State.present_width : (s.present c).width = s.width := rfl
@[simp] theorem State.present_reg : (s.present c).reg = s.reg := rfl
@[simp] theorem State.present_resetSeen : (s.present c).resetSeen = true := rfl
@[simp] theorem State.present_inputs : (s.present c).inputs = ⟨false, c⟩ :: s.inputs := rfl

end

section
variable (W : Nat) (r : Register W) (b : Bool) (ins : List (Input W))

@[simp] theorem State.withReg_mk (r' : Register W) : State.withReg ⟨W, r, b, ins⟩ r' = ⟨W, r', b, ins⟩ := rfl
@[simp] theorem State.consumed_mk (inp : Input W) :
    State.consumed ⟨W, r, b, inp :: ins⟩ = ⟨W, r, b, ins⟩ := rfl
@[simp] theorem State.takeReset_mk : State.takeReset ⟨W, r, b, ins⟩ = ⟨W, Register.zero W, true, ins⟩ := rfl
@[simp] theorem State.sampled_cons (inp : Input W) : State.sampled ⟨W, r, b, inp :: ins⟩ = some inp := rfl
@[simp] theorem State.sampled_nil : State.sampled ⟨W, r, b, []⟩ = none := rfl

end

end Sys2Proof.Machine
end

