-- ==== Sys2Proof/Laws/Step.lean ====
section
/-! SUPPORT. What exec, step and run can answer, said once. -/

namespace Sys2Proof.Machine

@[simp] theorem exec_idle (s : State) : exec .idle s = .next s := rfl
@[simp] theorem exec_adv (s : State) : exec .adv s = .next (s.withReg s.reg.advance) := rfl
@[simp] theorem exec_reserved11 (s : State) : exec .reserved11 s = .refused .reservedCommand := rfl

/-- INIT on operands that the ports carry. -/
theorem exec_init (s : State) (p d : Word s.width) :
    exec (.init p.toNat d.toNat) s = .next (s.withReg (Register.load p d)) := by
  simp [exec, execInit]

/-- INIT on operands given as numbers that fit. -/
theorem exec_init_of_lt (s : State) {p d : Nat} (hp : p < 2 ^ s.width) (hd : d < 2 ^ s.width) :
    exec (.init p d) s = .next (s.withReg (Register.load (BitVec.ofNat _ p) (BitVec.ofNat _ d))) := by
  simp [exec, execInit, operand_of_lt hp, operand_of_lt hd]

/-- Everything a command can do when it answers a next state: only the registers may differ. -/
theorem exec_cases {i : Instr} {s t : State} (h : exec i s = .next t) :
    (i = .idle ∧ t = s) ∨ (i = .adv ∧ t = s.withReg s.reg.advance) ∨
    (∃ p d : Word s.width, i = .init p.toNat d.toNat ∧ t = s.withReg (Register.load p d)) := by
  cases i with
  | idle => simp_all
  | adv => simp_all
  | reserved11 => simp at h
  | init p d =>
    by_cases hp : p < 2 ^ s.width
    · by_cases hd : d < 2 ^ s.width
      · rw [exec_init_of_lt s hp hd] at h
        refine .inr (.inr ⟨BitVec.ofNat _ p, BitVec.ofNat _ d, ?_, by simpa using h.symm⟩)
        simp [Nat.mod_eq_of_lt hp, Nat.mod_eq_of_lt hd]
      · simp [exec, execInit, operand_of_le (Nat.not_lt.mp hd)] at h
    · simp [exec, execInit, operand_of_le (Nat.not_lt.mp hp)] at h

section
variable {W : Nat} (r : Register W) (b : Bool) (inp : Input W) (ins : List (Input W))

/-- A step on a stream that goes on, as the registers see it (70_reset_and_hazards.md rule R126). -/
theorem step_running :
    step ⟨W, r, true, inp :: ins⟩ =
      match r.next inp with
      | some r' => .next ⟨W, r', true, ins⟩
      | none => .refused .reservedCommand := by
  obtain ⟨rst, op, p, d⟩ := inp
  cases rst with
  | true => rfl
  | false =>
    have hop : op = 0b00#2 ∨ op = 0b01#2 ∨ op = 0b10#2 ∨ op = 0b11#2 := by
      revert op; decide
    rcases hop with rfl | rfl | rfl | rfl
    · rfl
    · rfl
    · exact exec_init ⟨W, r, true, ins⟩ p d
    · rfl

/-- The bit returned in a step of a running stream (41_advance.md rule R71). -/
theorem returnedBit_running :
    State.returnedBit ⟨W, r, true, inp :: ins⟩ = if isAdv inp then some r.bitOut else none := by
  simp [State.returnedBit, isAdv]

/-- A step that samples INIT. -/
theorem step_init (p d : Word W) :
    step ⟨W, r, true, ⟨false, 0b10#2, p, d⟩ :: ins⟩ = .next ⟨W, Register.load p d, true, ins⟩ := by
  rw [step_running]; rfl

theorem step_reset (h : inp.rst = true) : step ⟨W, r, b, inp :: ins⟩ = .next ⟨W, Register.zero W, true, ins⟩ := by
  simp [step, risingEdge, h]

theorem step_before_reset (h : inp.rst = false) : step ⟨W, r, false, inp :: ins⟩ = .refused .beforeReset := by
  simp [step, risingEdge, h]

theorem step_end : step ⟨W, r, b, []⟩ = .refused .endOfStream := rfl

/-- A step never faults: there is no fault (60_exceptions.md rule R100). -/
theorem step_ne_fault (s : State) (f : Fault) : step s ≠ .fault f := nomatch f

/-- Everything a step can do when it answers a next state. -/
theorem step_cases {t : State} (h : step ⟨W, r, b, inp :: ins⟩ = .next t) :
    (inp.rst = true ∧ t = ⟨W, Register.zero W, true, ins⟩) ∨
    (inp.rst = false ∧ b = true ∧ ∃ r', r.next inp = some r' ∧ t = ⟨W, r', true, ins⟩) := by
  cases hr : inp.rst with
  | true => rw [step_reset r b inp ins hr] at h; exact .inl ⟨rfl, by simpa using h.symm⟩
  | false =>
    cases b with
    | false => rw [step_before_reset r inp ins hr] at h; simp at h
    | true =>
      rw [step_running] at h
      cases hn : r.next inp with
      | none => simp [hn] at h
      | some r' => exact .inr ⟨rfl, rfl, r', rfl, by simpa [hn] using h.symm⟩

end

@[simp] theorem run_zero (s : State) : run 0 s = .next s := rfl

theorem run_succ (n : Nat) (s : State) :
    run (n + 1) s =
      match step s with
      | .next t => run n t
      | .fault f => .fault f
      | .refused f => .refused f := by
  have hs : Sys2Proof.core.step s = step s := rfl
  simp only [run, Host.Core.run, hs]
  cases step s <;> rfl

theorem run_succ_of_next {n : Nat} {s t : State} (h : step s = .next t) : run (n + 1) s = run n t := by
  rw [run_succ, h]

/-- A run is the run of its first part and then of the rest. -/
theorem run_add_of_next {m n : Nat} {s t : State} (h : run m s = .next t) : run (m + n) s = run n t := by
  induction m generalizing s with
  | zero => simp at h; subst h; simp
  | succ m ih =>
    rw [show m + 1 + n = (m + n) + 1 by omega, run_succ]
    rw [run_succ] at h
    cases hs : step s with
    | next u => rw [hs] at h; exact ih h
    | fault f => nomatch f
    | refused f => simp [hs] at h

theorem bitsReturned_succ_of_next {n : Nat} {s t : State} (h : step s = .next t) :
    bitsReturned (n + 1) s = s.returnedBit.toList ++ bitsReturned n t := by
  rw [bitsReturned, h]

end Sys2Proof.Machine
end

