-- ==== Sys2Proof/Tests/Slice0.lean ====
section
/-! SUPPORT. The model's own tests: words written out from the spec's encodings, single steps with values from
95_test_vectors.md, ill-formed terms that the checks refuse, and for each statement with hypotheses a case that meets them. -/

namespace Sys2Proof.Tests

open Sys2Proof.Machine

/-- The registers of an outcome, as numbers: polynomial, mask, data. -/
def regsOf : Host.Outcome State Fault Refusal → Option (Nat × Nat × Nat)
  | .next s => some (s.reg.polynomial.toNat, s.reg.mask.toNat, s.reg.data.toNat)
  | .fault _ => none
  | .refused _ => none

/-- Why an outcome is refused. -/
def refusalOf : Host.Outcome State Fault Refusal → Option Refusal
  | .next _ => none
  | .fault _ => none
  | .refused r => some r

/-- The input tuple of a command. -/
def drive (W : Nat) (i : Instr) : Input W := ⟨false, encode W i⟩

/-- An instance of width `W` after a reset step, with given registers and stream. -/
def at' (W p m d : Nat) (ins : List (Input W)) : State :=
  ⟨W, ⟨BitVec.ofNat W p, BitVec.ofNat W m, BitVec.ofNat W d⟩, true, ins⟩

/-! Well-formedness: an ill-formed term for each check. -/

theorem test_wellFormed_refuses_wide_polynomial : Instr.wellFormed 8 (.init 0x100 0) = false := by decide
theorem test_wellFormed_refuses_wide_seed : Instr.wellFormed 8 (.init 0 0x100) = false := by decide
theorem test_wellFormed_takes_the_largest_operands : Instr.wellFormed 8 (.init 0xFF 0xFF) = true := by decide
theorem test_fitsIn_boundary : fitsIn 4 15 = true ∧ fitsIn 4 16 = false := by decide

/-! Decoding: words from 30_encoding.md rules R41, R42 and the `CW` columns of 95_test_vectors.md. -/

/-- Rule R41: "`IDLE` is `0x00000`"; P2 step 5. -/
theorem test_decode_idle : decodeWord 8 0b00_00000000_00000000 = .ok .idle := by decide
/-- Rule R44: the operand ports are ignored. -/
theorem test_decode_idle_with_noise : decodeWord 8 0b00_11111111_10000001 = .ok .idle := by decide
/-- Rule R41: "`ADV` is `0x10000`"; P3 step 3 at width 16. -/
theorem test_decode_adv : decodeWord 8 0b01_00000000_00000000 = .ok .adv ∧ decodeWord 16 0x100000000 = .ok .adv := by decide
/-- Rule R41: "`INIT 0x19, 0x01` is `0b10_00011001_00000001 = 0x21901`". -/
theorem test_decode_init : decodeWord 8 0b10_00011001_00000001 = .ok (.init 0x19 0x01) := by decide
/-- P5 step 2 and P5 step 5 at width 64: the operands at the top of their range. -/
theorem test_decode_init_64 :
    decodeWord 64 0x240000000000000012000000000000000 = .ok (.init 0x4000000000000001 0x2000000000000000) ∧
    decodeWord 64 0x2FFFFFFFFFFFFFFFFFFFFFFFFFFFFFFFF = .ok (.init 0xFFFFFFFFFFFFFFFF 0xFFFFFFFFFFFFFFFF) := by decide
/-- Rule R42: `11` is reserved. -/
theorem test_decode_reserved : decodeWord 8 0b11_00000000_00000000 = .ok .reserved11 := by decide
/-- A number with a bit above the 18 of a command word of width 8 is none. -/
theorem test_decode_too_wide : decodeWord 8 0x40000 = .error .wordTooWide := by decide
/-- spec/opcode_table.json: "match" over `op[1:0]`, the four rows. -/
theorem test_decodeTableWord :
    decodeTableWord 8 0b00 = some .idle ∧ decodeTableWord 8 0b01 = some .adv ∧
    decodeTableWord 8 0b10 = some (.init 0 0) ∧ decodeTableWord 8 0b11 = some .reserved11 := by decide
/-- spec/opcode_table.json: "INIT 0x19, 0x01 = 0x21901", the row's 18-bit "encoding". -/
theorem test_decodeTableWord_command_word : decodeTableWord 24 0x21901 = some (.init 0x19 0x01) := by decide

/-! Single steps. -/

/-- 42_idle_and_reserved.md rule R80, worked example. -/
theorem test_idle : regsOf (step (at' 8 0x19 0x10 0x09 [drive 8 .idle])) = some (0x19, 0x10, 0x09) := by decide
/-- V9: IDLE returns no bit although `bit_out` shows 1. -/
theorem test_idle_returns_nothing :
    (at' 8 0x19 0x10 0x08 [drive 8 .idle]).returnedBit = none ∧ (at' 8 0x19 0x10 0x08 []).reg.bitOut = true := by decide
/-- V2: polynomial `99`, mask `10`, data `48` gives bit 1 and data `09`. -/
theorem test_adv_hit :
    regsOf (step (at' 8 0x99 0x10 0x48 [drive 8 .adv])) = some (0x99, 0x10, 0x09) ∧
    (at' 8 0x99 0x10 0x48 [drive 8 .adv]).returnedBit = some true := by decide
/-- V2: "mask bit set before the shift does not count": `19`, `10`, `10` gives bit 0 and data `20`. -/
theorem test_adv_tests_the_shifted_value :
    regsOf (step (at' 8 0x19 0x10 0x10 [drive 8 .adv])) = some (0x19, 0x10, 0x20) ∧
    (at' 8 0x19 0x10 0x10 [drive 8 .adv]).returnedBit = some false := by decide
/-- 40_initialize.md rule R60, worked example: `INIT 0x18, 0x08` gives `(0x19, 0x10, 0x08)`. -/
theorem test_init : regsOf (step (at' 8 0xFF 0x40 0xBF [drive 8 (.init 0x18 0x08)])) = some (0x19, 0x10, 0x08) := by decide
/-- P2 step 8, rule R65: the mask of an earlier INIT is overwritten with 0. -/
theorem test_init_clears_the_mask :
    regsOf (step (at' 8 0x19 0x10 0x0B [drive 8 (.init 0x01 0x81)])) = some (0x01, 0x00, 0x81) := by decide
/-- 42_idle_and_reserved.md rule R81: refused with `rst = 0`, a reset step with `rst = 1` (V10, V12). -/
theorem test_reserved :
    refusalOf (step (at' 8 0x19 0x10 0x08 [drive 8 .reserved11])) = some .reservedCommand ∧
    regsOf (step (at' 8 0xFF 0x40 0xBF [⟨true, encode 8 .reserved11⟩])) = some (0, 0, 0) := by decide

/-- V1: `mask_of` at widths 8 and 16. -/
theorem test_maskOf :
    maskOf 0x03#8 = 0x02#8 ∧ maskOf 0x7F#8 = 0x40#8 ∧ maskOf 0x40#8 = 0x40#8 ∧ maskOf 0x80#8 = 0#8 ∧
    maskOf 0x80#16 = 0x80#16 ∧ maskOf 0xFFFF#16 = 0x4000#16 ∧ maskOf 0x8001#16 = 0#16 := by decide
/-- V11: the smallest widths; at `W = 4` the masks of all operands. -/
theorem test_maskOf_small_widths :
    maskOf 1#1 = 0#1 ∧ maskOf 0b10#2 = 0#2 ∧ maskOf 0b010#3 = 0b010#3 ∧ maskOf 0b101#3 = 0#3 ∧
    (List.range 16).map (fun p => (maskOf (BitVec.ofNat 4 p)).toNat) = [0, 0, 2, 2, 4, 4, 4, 4, 0, 0, 2, 2, 4, 4, 4, 4] := by
  decide

/-- A word of the opcode table runs as the first instruction after reset. -/
theorem test_withFetchWord :
    regsOf (step (State.reset.withFetchWord 8 0b00)) = some (0, 0, 0) ∧
    regsOf (step (State.reset.withFetchWord 8 0b01)) = some (0, 0, 0) ∧
    regsOf (step (State.reset.withFetchWord 8 0b10)) = some (1, 0, 0) ∧
    refusalOf (step (State.reset.withFetchWord 8 0b11)) = some .reservedCommand := by decide

/-! Trace syntax (30_encoding.md rules R48, R49). -/

/-- `InIt 0x19 , 0b1 -> bit=0 data=1 ; c`. -/
theorem test_readLine_init :
    readLine ['I', 'n', 'I', 't', ' ', '0', 'x', '1', '9', ' ', ',', ' ', '0', 'b', '1', ' ', '-', '>', ' ', 'b', 'i', 't', '=',
      '0', ' ', 'd', 'a', 't', 'a', '=', '1', ' ', ';', ' ', 'c'] =
      .ok (some ⟨.init 0x19 1, some [false], some 1⟩) := by rfl
/-- `ADVN 15->bit=01`, and a comment alone. -/
theorem test_readLine_advn :
    readLine ['A', 'D', 'V', 'N', ' ', '1', '5', '-', '>', 'b', 'i', 't', '=', '0', '1'] =
      .ok (some ⟨.advn 15, some [false, true], none⟩) ∧
    readLine [' ', ';', 'A', 'D', 'V'] = .ok none := ⟨by rfl, by rfl⟩
/-- `ADV -> data=0x02` and `ADV data=10`: both ways of recording `data` alone that are read, and an unprefixed value is decimal
(log entry 12). -/
theorem test_readLine_data_alone :
    readLine ['A', 'D', 'V', ' ', '-', '>', ' ', 'd', 'a', 't', 'a', '=', '0', 'x', '0', '2'] =
      .ok (some ⟨.adv, none, some 2⟩) ∧
    readLine ['A', 'D', 'V', ' ', 'd', 'a', 't', 'a', '=', '1', '0'] =
      .ok (some ⟨.adv, none, some 10⟩) := ⟨by rfl, by rfl⟩
/-- `ADVN` without a count, and a word that is no mnemonic. -/
theorem test_readLine_rejects :
    readLine ['A', 'D', 'V', 'N'] = .error .badSyntax ∧ readLine ['1', '1'] = .error .badSyntax := ⟨by rfl, by rfl⟩

/-! Hypotheses that can be met: one case for each statement that has hypotheses, named after it. -/

theorem meets_ShiftDoublesModuloTheWidth :
    (1 ≤ 3 ∧ 3 ≤ 4 - 1) ∧ (0#4).toNat = 0 ∧ (1 ≤ 4 ∧ (8#4).toNat = 2 ^ (4 - 1)) ∧ (1 ≤ 4 ∧ (15#4).toNat = 2 ^ 4 - 1) := by decide
theorem meets_MaskIsTheHighestScannedBit : 2 ≤ 2 ∧ (1#2).toNat = 1 ∧ (3#2).toNat = 2 ^ (2 - 1) ||| 1 := by decide
theorem meets_InitLoadsConfigurationAndSeed :
    (encode 8 (.init 0xFF 0)).op = 0b10#2 ∧ 0xFF < 2 ^ State.reset.width ∧ 0 < 2 ^ State.reset.width ∧ 3 ≤ 3 := by decide
theorem meets_InitForcesBitZero :
    1 ≤ State.reset.width ∧ 0x19 < 2 ^ State.reset.width ∧ 0xFF < 2 ^ State.reset.width ∧ Nat.testBit 0x19 0 = true := by decide
theorem meets_InitOverwritesTheEarlierConfiguration :
    0x81 < 2 ^ 8 ∧ 0 < 2 ^ 8 ∧ ∀ i, 1 ≤ i → i ≤ 8 - 2 → Nat.testBit 0x81 i = false := by
  refine ⟨by decide, by decide, fun i h1 h2 => ?_⟩
  interval_cases i <;> decide
theorem meets_AdvanceShiftsTestsAndXors :
    (2 * (at' 8 0x19 0x10 0x08 []).reg.data.toNat % 2 ^ 8 &&& (at' 8 0x19 0x10 0x08 []).reg.mask.toNat ≠ 0) ∧
    (2 * (at' 8 0x19 0x10 0x07 []).reg.data.toNat % 2 ^ 8 &&& (at' 8 0x19 0x10 0x07 []).reg.mask.toNat = 0) ∧
    (encode 8 .adv).op = 0b01#2 := by decide
theorem meets_IdleStepsCanBeRemoved : (Command.mk 0b00#2 0xFF#8 0x01#8).op = 0b00#2 := by decide
theorem meets_CommandsChangeOnlyTheirRegisters (s : State) :
    exec .idle s = .next s ∧ exec .adv s = .next (s.withReg s.reg.advance) := ⟨rfl, rfl⟩
theorem meets_ReservedCommandIsRefused : (Command.mk 0b11#2 0xFF#8 0x01#8).op = 0b11#2 := by decide
theorem meets_CommandsAreTotalAndNeverFault :
    1 ≤ State.reset.width ∧ 0x81 < 2 ^ State.reset.width ∧ 0xFF < 2 ^ State.reset.width ∧
    0x81 = 2 ^ (State.reset.width - 1) ||| 1 := by decide
theorem meets_OnlyUnpresentableOperandsAreRefused :
    2 ^ State.reset.width ≤ 256 ∧ exec (.init 256 0) State.reset = .refused .operandTooWide := ⟨by decide, rfl⟩
theorem meets_RepeatedInitRestartsTheSequence :
    0x19 < 2 ^ 8 ∧ 0x01 < 2 ^ 8 ∧ ∀ inp ∈ [drive 8 .adv, drive 8 .idle], isIdleOrAdv inp = true := by decide
theorem meets_StepRunsTheDecodedCommand : decode (encode 8 (.init 0x19 0x01)) = .init 0x19 0x01 := by decide
theorem meets_RunCompletesExactlyIfTheHostObeys :
    (State.powerOn 8 [⟨true, encode 8 .idle⟩, drive 8 .adv]).hostObeys = true ∧
    (State.powerOn 8 [drive 8 .adv]).hostObeys = false := ⟨rfl, rfl⟩
theorem meets_StepKeepsWidthAndTakesOneTuple :
    step (at' 8 0x19 0x10 0x09 [drive 8 .idle]) = .next (at' 8 0x19 0x10 0x09 []) := by rfl
theorem meets_ReturnedBitIsBitOutBeforeTheStep :
    (drive 8 .adv).rst = false ∧ (drive 8 .adv).cmd.op = 0b01#2 ∧ (drive 8 .idle).cmd.op ≠ 0b01#2 := by decide
theorem meets_TestedBitIsBelowTheMask :
    1 ≤ 1 ∧ 1 ≤ 3 - 2 ∧ (Register.mk 3#3 2#3 1#3).mask = BitVec.ofNat 3 (2 ^ 1) ∧
    (Register.mk 3#3 2#3 1#3).polynomial.getLsbD 1 = true ∧ (Register.mk 3#3 2#3 1#3).bitOut = true := by decide
theorem meets_InvariantHoldsAtReset : 1 ≤ Config.width := by decide
theorem meets_StepKeepsTheInvariant :
    (at' 8 0x19 0x10 0x09 [drive 8 .idle]).inv = true ∧
    step (at' 8 0x19 0x10 0x09 [drive 8 .idle]) = .next (at' 8 0x19 0x10 0x09 []) := ⟨by decide, rfl⟩
theorem meets_ConfigurationAfterInitStays :
    1 ≤ 8 ∧ 2 ≤ 8 ∧ 0x99 < 2 ^ 8 ∧ 0x5A < 2 ^ 8 ∧
    ∀ inp ∈ [drive 8 .adv, drive 8 .idle], keepsConfiguration inp = true ∧ permitted inp = true := by decide
theorem meets_OnlyInitAndResetChangeTheConfiguration :
    step ⟨8, ⟨0x19#8, 0x10#8, 0x09#8⟩, true, [drive 8 .idle]⟩ = .next (at' 8 0x19 0x10 0x09 []) ∧
    (drive 8 .idle).rst = false ∧ (drive 8 .idle).cmd.op ≠ 0b10#2 ∧ 0x19 < 2 ^ 8 ∧ 1 < 2 ^ 8 ∧ 2 < 2 ^ 8 :=
  ⟨rfl, by decide⟩
theorem meets_OperandPortsAreIgnoredUnlessInit :
    List.Forall₂ (fun a b : Input 8 => a.rst = b.rst ∧ a.cmd.op = b.cmd.op ∧ (a.cmd.op = 0b10#2 → a.cmd = b.cmd))
      [⟨false, 0b01#2, 0#8, 0#8⟩, drive 8 (.init 0x19 1)] [⟨false, 0b01#2, 0xFF#8, 0x01#8⟩, drive 8 (.init 0x19 1)] ∧
    (encode 8 .adv).op ≠ 0b10#2 :=
  ⟨.cons (by decide) (.cons (by decide) .nil), by decide⟩
theorem meets_DecodeOfEncodeIsTheInstruction :
    Instr.wellFormed 8 (.init 0xFF 0xFF) = true ∧ Instr.wellFormed 8 .reserved11 = true := by decide
theorem meets_WrittenCommandWordsDecode : 2 ^ (2 + 2 * 8) ≤ 0x40000 := by decide
theorem meets_PseudoCommandsExpand : 0xFF < 2 ^ 8 ∧ 0x00 < 2 ^ 8 := by decide
theorem meets_WideLiteralsAreTraceErrors : 2 ^ 8 ≤ 0x100 := by decide
theorem meets_InitThenAdvancesGiveTheSequence :
    ∀ inp ∈ [drive 8 .idle, ⟨false, 0b01#2, 0xFF#8, 0x01#8⟩], isIdleOrAdv inp = true := by decide
theorem meets_OutputIsAFunctionOfOperandsAndCount :
    (∀ inp ∈ [drive 8 (.init 3 1), ⟨true, 0b11#2, 0#8, 0#8⟩], permitted inp = true) ∧
    (∀ inp ∈ [drive 8 .adv], permitted inp = true) ∧
    (∀ inp ∈ [drive 8 .adv], isIdleOrAdv inp = true) ∧ (∀ inp ∈ [drive 8 .idle, drive 8 .adv], isIdleOrAdv inp = true) ∧
    [drive 8 .adv].countP isAdv = [drive 8 .idle, drive 8 .adv].countP isAdv := by decide
theorem meets_DegenerateMaskOnlyShifts : 1 ≤ 1 ∧ (Command.mk 0b01#2 0xFF#8 0x01#8).op = 0b01#2 ∧ 8 ≤ 8 := by decide
theorem meets_ZeroDataStaysZero :
    ∀ inp ∈ [drive 8 .adv, ⟨true, encode 8 .reserved11⟩, drive 8 .idle],
      permitted inp = true ∧ (inp.rst = true ∨ inp.cmd.op ≠ 0b10#2) := by decide
theorem meets_CommandsBeforeTheFirstInitAreInert : ∀ inp ∈ [drive 8 .idle, drive 8 .adv], isIdleOrAdv inp = true := by decide
theorem meets_FeedbackXorsTheStoredPolynomial :
    (encode 8 .adv).op = 0b01#2 ∧ 2 * (0x08#8).toNat % 2 ^ 8 &&& (maskOf 0x18#8).toNat ≠ 0 := by decide
/-- The lowest and the highest mask (V2), with the polynomial's top bit clear and set (V6). -/
theorem meets_BitsAboveTheMaskDrain :
    (1 ≤ 1 ∧ 1 ≤ 3 - 2 ∧ (maskOf 0b010#3).toNat = 2 ^ 1 ∧ (0b010#3).getLsbD 2 = false ∧ 3 - 1 ≤ 1 + 1) ∧
    (1 ≤ 6 ∧ 6 ≤ 8 - 2 ∧ (maskOf 0xC1#8).toNat = 2 ^ 6 ∧ (0xC1#8).getLsbD 7 = true ∧
      (0xFF#8).toNat % 2 ^ 6 = (0x3F#8).toNat % 2 ^ 6) := by decide
theorem meets_OnlyTheLowBitsMatter :
    (1 ≤ 4 ∧ 4 ≤ 8 - 2 ∧ 4 ≤ 16 - 2 ∧ (maskOf 0x99#8).toNat = 2 ^ 4 ∧ (maskOf 0x19#16).toNat = 2 ^ 4 ∧
      (0x99#8 ||| 1#8).toNat % 2 ^ 4 = (0x19#16 ||| 1#16).toNat % 2 ^ 4 ∧ (0x34#8).toNat % 2 ^ 4 = (0x1234#16).toNat % 2 ^ 4) ∧
    (∀ i, i < 8 - 1 → (0x99#8).getLsbD i = (0x19#8).getLsbD i) := by decide
theorem meets_WidthsAgreeBelowTheNarrowTopBit : 1 ≤ 8 ∧ 8 ≤ 16 ∧ 0x7F < 2 ^ (8 - 1) := by decide
theorem meets_LowerScanBoundIsUnobservable : 2 ≤ 2 ∧ maskScan 1#2 0 (2 - 1) ≠ maskOf 1#2 := by decide
theorem meets_DegreeFourExamplesHavePeriodFifteen : 1 ≤ 15 ∧ 15 ≤ 15 := by decide
theorem meets_LowBitsRunThroughAPureCycle :
    1 ≤ 4 ∧ 4 ≤ 8 - 2 ∧ (maskOf 0x19#8).toNat = 2 ^ 4 ∧ (0x01#8).toNat % 2 ^ 4 ≠ 0 := by decide

end Sys2Proof.Tests
end

section
/-! PROOFS. The statement of 00_scope.md: the left shift by one (rule R8), from what `Laws` say of its value and of its bits. -/

namespace Sys2Proof.Machine

/-- Doubling the value with only the top bit set gives `2 ^ W`, which leaves no bit in a `W`-bit word. -/
theorem shl1_toNat_of_topBit {W : Nat} (v : Word W) (hW : 1 ≤ W) (hv : v.toNat = 2 ^ (W - 1)) : (shl1 v).toNat = 0 := by
  rw [shl1_toNat, hv, mul_pow_sub_one (by omega), Nat.mod_self]

/-- `2 * (2 ^ W - 1)` is `2 ^ W` above `2 ^ W - 2`, which is itself a value of the word. -/
theorem shl1_toNat_of_allOnes {W : Nat} (v : Word W) (hW : 1 ≤ W) (hv : v.toNat = 2 ^ W - 1) :
    (shl1 v).toNat = 2 ^ W - 2 := by
  have two_le : 2 ≤ 2 ^ W := Nat.le_self_pow (by omega) 2
  calc (shl1 v).toNat
      = 2 * (2 ^ W - 1) % 2 ^ W := by rw [shl1_toNat, hv]
    _ = (2 ^ W - 2 + 2 ^ W) % 2 ^ W := by congr 1; omega
    _ = 2 ^ W - 2 := by rw [Nat.add_mod_right, Nat.mod_eq_of_lt (by omega)]

/-- At width 1 the only bit of a word is the one that the shift drops. -/
theorem shl1_toNat_of_width_one (v : Word 1) : (shl1 v).toNat = 0 := by
  rw [shl1_toNat, pow_one, Nat.mul_mod_right]

/-- Settles O1: the value and the bits by the laws of `shl1`, each corner case by reducing its doubled value. -/
theorem shiftDoublesModuloTheWidth : Obligations.ShiftDoublesModuloTheWidth := by
  intro W v
  refine ⟨shl1_toNat v, fun i h1 hi => ?bit, ?bitZero, fun hv => ?zero, shl1_toNat_of_topBit v, shl1_toNat_of_allOnes v,
    fun hW => ?widthOne⟩
  case bit =>
    have hlt : i < W := by omega
    rw [getLsbD_shl1, decide_eq_true h1, decide_eq_true hlt, Bool.true_and, Bool.true_and]
  case bitZero => simp [getLsbD_shl1]
  case zero => rw [shl1_toNat, hv, Nat.mul_zero, Nat.zero_mod]
  case widthOne =>
    subst hW
    exact shl1_toNat_of_width_one v

end Sys2Proof.Machine
end

section
/-! PROOFS. The statements of 10_state.md: the configuration after INIT (rule R21), what may change it (rule R22), the
registers after a reset step (rule R20) and the beginning of a run (rule R25). First what they share: the scan of a stored
polynomial, and the step on the registers alone. -/

namespace Sys2Proof.Machine

/-- The scan finds nothing among bits `W-2` down to 1, or answers the highest set bit there (40_initialize.md rule R62). -/
theorem maskOf_cases {W : Nat} (p : Word W) :
    (maskOf p = 0#W ∧ ∀ i, 1 ≤ i → i ≤ W - 2 → p.getLsbD i = false) ∨
    ∃ k, 1 ≤ k ∧ k ≤ W - 2 ∧ maskOf p = bitAt W k ∧ p.getLsbD k = true ∧
      ∀ j, k < j → j ≤ W - 2 → p.getLsbD j = false := by
  obtain ⟨hm, hzero⟩ | ⟨k, h1, hk, hp, habove, hm⟩ := maskScan_cases p 1 (W - 2)
  · exact .inl ⟨hm, fun i hi hi' => hzero i hi (by omega)⟩
  · exact .inr ⟨k, h1, by omega, hm, hp, fun j hj hj' => habove j hj (by omega)⟩

/-- The bit that INIT forces is bit 0 alone (40_initialize.md rule R61). -/
theorem getLsbD_or_one {W i : Nat} (p : Word W) (hi : i < W) :
    (p ||| 1#W).getLsbD i = (p.getLsbD i || decide (i = 0)) := by
  have hW : 0 < W := by omega
  rw [BitVec.getLsbD_or, BitVec.getLsbD_one, decide_eq_true hW, Bool.true_and]

/-- The forced bit 0 stands below the scanned bits (40_initialize.md rules R61, R62). -/
theorem maskOf_or_one {W : Nat} (p : Word W) : maskOf (p ||| 1#W) = maskOf p :=
  maskScan_congr _ _ _ _ fun i hi hi' => by
    have hne : i ≠ 0 := by omega
    rw [getLsbD_or_one p (by omega), decide_eq_false hne, Bool.or_false]

/-- The bit that the scan answers is a bit of the scanned word. -/
theorem maskOf_and_self {W : Nat} (p : Word W) : maskOf p &&& p = maskOf p := by
  obtain ⟨hm, -⟩ | ⟨k, -, -, hm, hp, -⟩ := maskOf_cases p
  · rw [hm, BitVec.zero_and]
  · rw [hm]
    apply BitVec.eq_of_getLsbD_eq
    intro i _
    rw [BitVec.getLsbD_and, getLsbD_bitAt]
    by_cases hik : k = i
    · rw [← hik, hp, Bool.and_true]
    · simp [hik]

/-- A permitted tuple has a next state (70_reset_and_hazards.md rules R126, R128 (b)). -/
theorem Register.next_of_permitted {W : Nat} (r : Register W) {inp : Input W} (h : permitted inp = true) :
    ∃ r', r.next inp = some r' := by
  obtain ⟨rst, op, p, d⟩ := inp
  cases rst with
  | true => exact ⟨_, rfl⟩
  | false =>
    obtain rfl | rfl | rfl | rfl := opcode_cases op
    · exact ⟨_, rfl⟩
    · exact ⟨_, rfl⟩
    · exact ⟨_, rfl⟩
    · simp [permitted, opReserved] at h

/-- A tuple that is neither a reset nor an INIT leaves the configuration alone. -/
theorem Register.next_of_keepsConfiguration {W : Nat} {r r' : Register W} {inp : Input W}
    (hkeep : keepsConfiguration inp = true) (h : r.next inp = some r') :
    ∃ d : Word W, r' = ⟨r.polynomial, r.mask, d⟩ := by
  obtain ⟨rst, op, p, d⟩ := inp
  cases rst with
  | true => simp [keepsConfiguration] at hkeep
  | false =>
    obtain rfl | rfl | rfl | rfl := opcode_cases op
    · exact ⟨r.data, (Option.some.inj h).symm⟩
    · exact ⟨r.advance.data, (Option.some.inj h).symm⟩
    · simp [keepsConfiguration, opInit] at hkeep
    · simp [Register.next] at h

/-- A stream without reset and INIT runs to its end and leaves the configuration alone. -/
theorem run_of_keepsConfiguration {W : Nat} (r : Register W) (ins rest : List (Input W))
    (hins : ∀ inp ∈ ins, keepsConfiguration inp = true ∧ permitted inp = true) :
    ∃ d : Word W, run ins.length ⟨W, r, true, ins ++ rest⟩ = .next ⟨W, ⟨r.polynomial, r.mask, d⟩, true, rest⟩ := by
  induction ins generalizing r with
  | nil => exact ⟨r.data, rfl⟩
  | cons inp ins ih =>
    obtain ⟨⟨hkeep, hperm⟩, hins⟩ := List.forall_mem_cons.mp hins
    obtain ⟨r', hnext⟩ := r.next_of_permitted hperm
    have hstep : step ⟨W, r, true, inp :: (ins ++ rest)⟩ = .next ⟨W, r', true, ins ++ rest⟩ := by
      rw [step_running, hnext]
    obtain ⟨d, rfl⟩ := Register.next_of_keepsConfiguration hkeep hnext
    obtain ⟨d', hrun⟩ := ih ⟨r.polynomial, r.mask, d⟩ hins
    exact ⟨d', (run_succ_of_next hstep).trans hrun⟩

/-- The value of the polynomial that INIT stores (40_initialize.md rule R61). -/
theorem ofNat_or_one_toNat {W p : Nat} (hW : 1 ≤ W) (hp : p < 2 ^ W) :
    (BitVec.ofNat W p ||| 1#W).toNat = p ||| 1 := by
  rw [BitVec.toNat_or, BitVec.toNat_ofNat, BitVec.toNat_ofNat, Nat.mod_eq_of_lt hp, Nat.one_mod_two_pow hW]

/-- Settles O25: the first step writes the configuration, the others keep it, and (a) to (e) are facts about the scan of the
stored polynomial, which is the scan of the operand. -/
theorem configurationAfterInitStays : Obligations.ConfigurationAfterInitStays := by
  refine ⟨fun W r p q ins rest hW hp _ hins => ?afterInit, fun W r c b ins rest hins => ?afterReset⟩
  case afterInit =>
    obtain ⟨d, hrun⟩ := run_of_keepsConfiguration (Register.load (BitVec.ofNat W p) (BitVec.ofNat W q)) ins rest hins
    refine ⟨_, (run_succ_of_next (step_init r (ins ++ rest) _ _)).trans hrun,
      ofNat_or_one_toNat hW hp, ?bitZero, rfl, ?single, fun hW2 => ?topBit, ?within⟩
    case bitZero =>
      rw [Register.load_polynomial, getLsbD_or_one _ hW, decide_eq_true rfl, Bool.or_true]
    case topBit =>
      have hlt : W - 1 < W := by omega
      have hne : W - 1 ≠ 0 := by omega
      rw [Register.load_polynomial, getLsbD_or_one _ hlt, decide_eq_false hne, Bool.or_false,
        BitVec.getLsbD_ofNat, decide_eq_true hlt, Bool.true_and]
    case single =>
      rw [Register.load_mask, Register.load_polynomial, ← maskOf_or_one]
      obtain ⟨hm, -⟩ | ⟨k, h1, hk, hm, hbit, habove⟩ := maskOf_cases (BitVec.ofNat W p ||| 1#W)
      · exact .inl (by rw [hm, BitVec.toNat_zero])
      · exact .inr ⟨k, h1, hk, by rw [hm, bitAt_toNat (by omega)], hbit, habove⟩
    case within =>
      rw [Register.load_mask, Register.load_polynomial, ← maskOf_or_one]
      exact maskOf_and_self _
  case afterReset =>
    obtain ⟨d, hrun⟩ := run_of_keepsConfiguration (Register.zero W) ins rest hins
    exact ⟨_, (run_succ_of_next (step_reset r b ⟨true, c⟩ (ins ++ rest) rfl)).trans hrun,
      BitVec.toNat_zero, BitVec.toNat_zero⟩

/-- Settles O26: a step that is no reset step is the step on the registers; the mask INIT writes is read off its polynomial
operand. -/
theorem onlyInitAndResetChangeTheConfiguration : Obligations.OnlyInitAndResetChangeTheConfiguration := by
  refine ⟨fun W r b inp rest t hstep hrst hop => ?otherStep, fun W p => maskOf_or_one p,
    fun W r r' p q q' hp hq hq' => ?sameOperand⟩
  case otherStep =>
    obtain ⟨hreset, -⟩ | ⟨-, rfl, r', hnext, rfl⟩ := step_cases r b inp rest hstep
    · simp [hrst] at hreset
    · have hkeep : keepsConfiguration inp = true := by
        rw [keepsConfiguration, hrst, Bool.not_false, Bool.true_and]
        exact decide_eq_true hop
      obtain ⟨d, rfl⟩ := Register.next_of_keepsConfiguration hkeep hnext
      exact ⟨d, rfl⟩
  case sameOperand =>
    exact ⟨_, _, exec_init_of_lt ⟨W, r, true, []⟩ hp hq, exec_init_of_lt ⟨W, r', true, []⟩ hp hq', rfl,
      (maskOf_or_one _).symm⟩

/-- After a reset step `bit_out` previews no feedback (10_state.md rule R20). -/
theorem Register.zero_bitOut (W : Nat) : (Register.zero W).bitOut = false := hits_zero_mask _

/-- Settles O14: a reset step leaves the zero registers, whose outputs are 0. -/
theorem resetLeavesThreeZeros : Obligations.ResetLeavesThreeZeros := by
  refine ⟨fun W r b c rest => ?resetStep, ?resetState⟩
  case resetStep =>
    have hz : (0#W).toNat = 0 := BitVec.toNat_zero
    exact ⟨Register.zero W, step_reset r b ⟨true, c⟩ rest rfl, hz, hz, hz, Register.zero_bitOut W, hz, hz, hz⟩
  case resetState => exact ⟨rfl, rfl, rfl⟩

/-- Settles O16: the two steps that the model can take before a reset step has happened, at the registers given and at those of
power-up. -/
theorem runsBeginWithAReset : Obligations.RunsBeginWithAReset := by
  intro W r c rest
  have refused (r : Register W) : step ⟨W, r, false, ⟨false, c⟩ :: rest⟩ = .refused .beforeReset :=
    step_before_reset r ⟨false, c⟩ rest rfl
  have resets (r : Register W) : step ⟨W, r, false, ⟨true, c⟩ :: rest⟩ = .next (State.resetAt W rest) :=
    step_reset r false ⟨true, c⟩ rest rfl
  exact ⟨refused r, resets r, refused _, resets _⟩

end Sys2Proof.Machine
end

section
/-! PROOFS. The statement of 20_memory.md: the run as the fold of rule R126's step function (rule R36). First one step of a
run, when that function has a result and when it has none. -/

namespace Sys2Proof.Machine

section
variable {W : Nat} {r r' : Register W} {inp : Input W} (ins : List (Input W)) (n : Nat)

/-- A run goes on from the registers that rule R126's step function answers. -/
theorem run_succ_of_next_some (h : r.next inp = some r') :
    run (n + 1) ⟨W, r, true, inp :: ins⟩ = run n ⟨W, r', true, ins⟩ :=
  run_succ_of_next (by rw [step_running, h])

/-- A run stops where rule R126's step function has no result. -/
theorem run_succ_of_next_none (h : r.next inp = none) :
    run (n + 1) ⟨W, r, true, inp :: ins⟩ = .refused .reservedCommand := by
  rw [run_succ, step_running, h]

end

/-- Settles O18, by induction on the stream: its first tuple either moves both the run and the fold to the same registers or
stops both. -/
theorem runIsTheFoldOfTheStepFunction : Obligations.RunIsTheFoldOfTheStepFunction := by
  intro W r ins rest
  induction ins generalizing r with
  | nil => rfl
  | cons inp ins ih =>
    rw [List.length_cons, List.cons_append, List.foldlM_cons]
    cases hnext : r.next inp with
    | none => exact run_succ_of_next_none (ins ++ rest) ins.length hnext
    | some r' => exact (run_succ_of_next_some (ins ++ rest) ins.length hnext).trans (ih r')

end Sys2Proof.Machine
end

section
/-! PROOFS. The statements of 30_encoding.md: the opcode map (rule R42), the fields of the command word (rule R41), and the
operand ports that only INIT reads (rule R44). -/

namespace Sys2Proof

section
variable {W : Nat} (p q : Word W)

@[simp] theorem decode_opIdle : decode ⟨0b00#2, p, q⟩ = .idle := rfl
@[simp] theorem decode_opAdv : decode ⟨0b01#2, p, q⟩ = .adv := rfl
@[simp] theorem decode_opInit : decode ⟨0b10#2, p, q⟩ = .init p.toNat q.toNat := rfl
@[simp] theorem decode_opReserved : decode ⟨0b11#2, p, q⟩ = .reserved11 := rfl

end

/-- Settles O28: one equation of the decoder for each row of the map, and the list of the values of `op`. -/
theorem opcodeMapIsComplete : Obligations.OpcodeMapIsComplete := fun _ p q =>
  ⟨decode_opIdle p q, decode_opAdv p q, decode_opInit p q, decode_opReserved p q, opcode_cases⟩

/-- Two words side by side, as a number. -/
theorem toNat_append_eq_add {m n : Nat} (x : BitVec m) (y : BitVec n) : (x ++ y).toNat = x.toNat * 2 ^ n + y.toNat := by
  rw [BitVec.toNat_append, ← Nat.shiftLeft_add_eq_or_of_lt y.isLt, Nat.shiftLeft_eq]

/-- The command word as a number (rule R41). -/
theorem Command.toWord_toNat {W : Nat} (c : Command W) :
    c.toWord.toNat = c.op.toNat * 2 ^ (2 * W) + c.polyIn.toNat * 2 ^ W + c.seedIn.toNat := by
  rw [Command.toWord, toNat_append_eq_add, toNat_append_eq_add, Nat.add_mul, Nat.mul_assoc, ← Nat.pow_add, ← Nat.two_mul]

/-- The command word bit by bit: `seed_in` lowest, `poly_in` from bit `W`, `op` from bit `2W` (rule R41). -/
theorem Command.getLsbD_toWord {W : Nat} (c : Command W) (i : Nat) :
    c.toWord.getLsbD i =
      if i < W then c.seedIn.getLsbD i
      else if i < 2 * W then c.polyIn.getLsbD (i - W)
      else c.op.getLsbD (i - 2 * W) := by
  rw [Command.toWord, BitVec.getLsbD_append, BitVec.getLsbD_append]
  split
  · rfl
  · rw [show i - W - W = i - 2 * W by omega]
    simp only [show i - W < W ↔ i < 2 * W by omega]

section
variable {W : Nat} (c : Command W)

theorem Command.ofWord_toWord_op : (Command.ofWord c.toWord).op = c.op := by
  apply BitVec.eq_of_getLsbD_eq
  intro i hi
  simp [Command.ofWord, Command.getLsbD_toWord, hi, show ¬ 2 * W + i < W by omega]

theorem Command.ofWord_toWord_polyIn : (Command.ofWord c.toWord).polyIn = c.polyIn := by
  apply BitVec.eq_of_getLsbD_eq
  intro i hi
  simp [Command.ofWord, Command.getLsbD_toWord, hi, show W + i < 2 * W by omega]

theorem Command.ofWord_toWord_seedIn : (Command.ofWord c.toWord).seedIn = c.seedIn := by
  apply BitVec.eq_of_getLsbD_eq
  intro i hi
  simp [Command.ofWord, Command.getLsbD_toWord, hi]

/-- Reading the fields of a command's word gives the command back (rule R41). -/
@[simp] theorem Command.ofWord_toWord : Command.ofWord c.toWord = c :=
  (Command.mk.injEq ..).mpr ⟨c.ofWord_toWord_op, c.ofWord_toWord_polyIn, c.ofWord_toWord_seedIn⟩

end

/-- Every word is the word of its fields: they are adjacent and leave no bit out (rule R41). -/
@[simp] theorem Command.toWord_ofWord {W : Nat} (cw : BitVec (2 + W + W)) : (Command.ofWord cw).toWord = cw := by
  have op_poly : cw.extractLsb' (2 * W) 2 ++ cw.extractLsb' W W = cw.extractLsb' W (2 + W) :=
    BitVec.extractLsb'_append_extractLsb'_eq_extractLsb' (Nat.two_mul W)
  rw [Command.toWord, Command.ofWord, op_poly, BitVec.extractLsb'_append_extractLsb']

/-- Encoding what a command decodes to drives the ports that it ignores to 0 and changes nothing else (rule R44). -/
theorem encode_decode {W : Nat} (c : Command W) : encode W (decode c) = c.canonical := by
  obtain ⟨op, p, q⟩ := c
  obtain rfl | rfl | rfl | rfl := opcode_cases op
  · rfl
  · rfl
  · simp [encode, Command.canonical, opInit]
  · rfl

/-- Settles O30: the word as a number, its fields read back in both directions, and the three words that rule R41 writes out. -/
theorem commandWordFieldsStandInPlace : Obligations.CommandWordFieldsStandInPlace := fun _ c =>
  ⟨c.toWord_toNat, c.ofWord_toWord, Command.toWord_ofWord, encode_decode c, by decide⟩

/-- A command other than INIT is encoded with 0 on both operand ports (rule R44). -/
theorem encode_operands_of_ne_init {W : Nat} {i : Instr} (h : (encode W i).op ≠ opInit) :
    (encode W i).polyIn = 0#W ∧ (encode W i).seedIn = 0#W := by
  cases i with
  | idle => exact ⟨rfl, rfl⟩
  | adv => exact ⟨rfl, rfl⟩
  | init p q => exact absurd (encode_init_op W p q) h
  | reserved11 => exact ⟨rfl, rfl⟩

end Sys2Proof

namespace Sys2Proof.Machine

/-- The two tuples drive the same command, with the same operands if it is INIT (rule R44). -/
def SameCommand {W : Nat} (a b : Input W) : Prop :=
  a.rst = b.rst ∧ a.cmd.op = b.cmd.op ∧ (a.cmd.op = 0b10#2 → a.cmd = b.cmd)

/-- The registers after a step read the operand ports only if the command is INIT. -/
theorem SameCommand.next_eq {W : Nat} {a b : Input W} (h : SameCommand a b) (r : Register W) : r.next a = r.next b := by
  obtain ⟨hrst, hop, hcmd⟩ := h
  by_cases hinit : a.cmd.op = 0b10#2
  · rw [Register.next, Register.next, hrst, hcmd hinit]
  · have hinit' : b.cmd.op ≠ 0b10#2 := hop ▸ hinit
    rw [Register.next, Register.next, hrst, hop, if_neg hinit', if_neg hinit']

/-- Whether a tuple drives ADV does not depend on its operand ports. -/
theorem SameCommand.isAdv_eq {W : Nat} {a b : Input W} (h : SameCommand a b) : isAdv a = isAdv b := by
  obtain ⟨hrst, hop, -⟩ := h
  rw [isAdv, isAdv, hrst, hop]

section
variable {W : Nat} {r r' : Register W} {inp : Input W} (ins : List (Input W)) (n : Nat)

/-- The bits returned when rule R126's step function answers registers: those of the step, then those of the rest. -/
theorem bitsReturned_succ_of_next_some (h : r.next inp = some r') :
    bitsReturned (n + 1) ⟨W, r, true, inp :: ins⟩ =
      (if isAdv inp then some r.bitOut else none).toList ++ bitsReturned n ⟨W, r', true, ins⟩ := by
  rw [bitsReturned_succ_of_next (by rw [step_running, h]), returnedBit_running]

/-- The bits returned when rule R126's step function has no result: the run stops, so at most that of the step itself. -/
theorem bitsReturned_succ_of_next_none (h : r.next inp = none) :
    bitsReturned (n + 1) ⟨W, r, true, inp :: ins⟩ = (if isAdv inp then some r.bitOut else none).toList := by
  rw [bitsReturned, step_running, h, returnedBit_running, List.append_nil]

end

/-- Streams of the same commands have the same outcome and return the same bits, by induction on the streams: the first tuples
move the registers alike, or stop both runs. -/
theorem run_and_bitsReturned_of_sameCommand {W : Nat} {ins ins' : List (Input W)} (h : List.Forall₂ SameCommand ins ins')
    (r : Register W) :
    run ins.length ⟨W, r, true, ins⟩ = run ins'.length ⟨W, r, true, ins'⟩ ∧
    bitsReturned ins.length ⟨W, r, true, ins⟩ = bitsReturned ins'.length ⟨W, r, true, ins'⟩ := by
  induction h generalizing r with
  | nil => exact ⟨rfl, rfl⟩
  | @cons a b ins ins' hab _ ih =>
    rw [List.length_cons, List.length_cons]
    cases ha : r.next a with
    | none =>
      have hb : r.next b = none := (hab.next_eq r).symm.trans ha
      rw [run_succ_of_next_none _ _ ha, run_succ_of_next_none _ _ hb, bitsReturned_succ_of_next_none _ _ ha,
        bitsReturned_succ_of_next_none _ _ hb, hab.isAdv_eq]
      exact ⟨rfl, rfl⟩
    | some r' =>
      have hb : r.next b = some r' := (hab.next_eq r).symm.trans ha
      obtain ⟨hrun, hbits⟩ := ih r'
      rw [run_succ_of_next_some _ _ ha, run_succ_of_next_some _ _ hb, bitsReturned_succ_of_next_some _ _ ha,
        bitsReturned_succ_of_next_some _ _ hb, hab.isAdv_eq, hbits]
      exact ⟨hrun, rfl⟩

/-- Settles O27: noninterference by induction on the streams, the canonical form by the cases of the encoder. -/
theorem operandPortsAreIgnoredUnlessInit : Obligations.OperandPortsAreIgnoredUnlessInit :=
  ⟨fun _ r _ _ h => run_and_bitsReturned_of_sameCommand h r, fun _ _ h => encode_operands_of_ne_init h⟩

end Sys2Proof.Machine
end

section
/-! PROOFS. The statements of 40_initialize.md: the mask scan (rules R62, R87), what INIT writes (rules R60, R61, R63, R64) and
that nothing of the registers before it survives (rule R65). First the mask: when it is 0, when it is a given bit, and what a
scan down to bit 0 would change. -/

namespace Sys2Proof.Machine

theorem bitAt_ne_zero {W k : Nat} (hk : k < W) : bitAt W k ≠ 0#W := fun h => by
  have hval := congrArg BitVec.toNat h
  rw [bitAt_toNat hk, BitVec.toNat_zero] at hval
  exact NeZero.ne _ hval

/-- The mask is 0 exactly when no scanned bit is set (40_initialize.md rule R62). -/
theorem maskOf_eq_zero_iff {W : Nat} (p : Word W) :
    maskOf p = 0#W ↔ ∀ i, 1 ≤ i → i ≤ W - 2 → p.getLsbD i = false := by
  obtain ⟨hm, hzero⟩ | ⟨k, h1, hk, hm, hp, -⟩ := maskOf_cases p
  · exact iff_of_true hm hzero
  · have hne : maskOf p ≠ 0#W := hm ▸ bitAt_ne_zero (by omega)
    refine iff_of_false hne fun hzero => ?_
    simp [hzero k h1 hk] at hp

/-- An operand of INIT whose scanned bits are 0 gives mask 0 (rule R62). -/
theorem maskOf_ofNat_toNat_eq_zero {W n : Nat} (h : ∀ i, 1 ≤ i → i ≤ W - 2 → n.testBit i = false) :
    (maskOf (BitVec.ofNat W n)).toNat = 0 := by
  have hzero : maskOf (BitVec.ofNat W n) = 0#W := (maskOf_eq_zero_iff _).mpr fun i h1 hi => by
    rw [BitVec.getLsbD_ofNat, h i h1 hi, Bool.and_false]
  rw [hzero, BitVec.toNat_zero]

/-- The scan stops at bit `W-2` if that is set (rule R62). -/
theorem maskOf_of_getLsbD_highest {W : Nat} {p : Word W} (hW : 3 ≤ W) (hp : p.getLsbD (W - 2) = true) :
    maskOf p = bitAt W (W - 2) := by
  rw [maskOf, show W - 2 = W - 3 + 1 by omega, maskScan, show 1 + (W - 3) = W - 2 by omega, if_pos hp,
    show W - 3 + 1 = W - 2 by omega]

/-- The lowest position of a scan counts only where the scan of those above it finds nothing. -/
theorem maskScan_succ_lowest {W : Nat} (p : Word W) (lo n : Nat) :
    maskScan p lo (n + 1) =
      if maskScan p (lo + 1) n = 0#W ∧ p.getLsbD lo = true then bitAt W lo else maskScan p (lo + 1) n := by
  induction n with
  | zero => simp [maskScan]
  | succ n ih =>
    rw [maskScan, ih, maskScan, show lo + (n + 1) = lo + 1 + n by omega]
    cases hb : p.getLsbD (lo + 1 + n) with
    | false => rfl
    | true => simp [bitAt_ne_zero (BitVec.lt_of_getLsbD hb)]

/-- A scan down to bit 0 answers bit 0 where the mask is 0 and bit 0 is set, and the mask elsewhere (rule R62). -/
theorem maskScan_zero_eq {W : Nat} (p : Word W) (hW : 2 ≤ W) :
    maskScan p 0 (W - 1) = if maskOf p = 0#W ∧ p.getLsbD 0 = true then bitAt W 0 else maskOf p := by
  rw [show W - 1 = W - 2 + 1 by omega, maskScan_succ_lowest, maskOf]

/-- A scan down to bit 0 differs from the mask where bit 0 is set and no scanned bit is (rule R62). -/
theorem maskScan_zero_ne_maskOf_iff {W : Nat} (p : Word W) (hW : 2 ≤ W) :
    maskScan p 0 (W - 1) ≠ maskOf p ↔
      (∀ i, 1 ≤ i → i ≤ W - 2 → p.getLsbD i = false) ∧ p.getLsbD 0 = true := by
  rw [maskScan_zero_eq p hW, ← maskOf_eq_zero_iff]
  split
  next h => exact iff_of_true (h.1 ▸ bitAt_ne_zero (by omega)) h
  next h => exact iff_of_false (fun hne => hne rfl) h

/-- The bits of a number that has at most bits `n` and 0. -/
theorem testBit_topBit_or_lowBit (t b : Bool) (n i : Nat) :
    (t.toNat * 2 ^ n ||| b.toNat).testBit i = (decide (i = n) && t || decide (i = 0) && b) := by
  have hin : decide (i = n) = (decide (n ≤ i) && decide (i - n = 0)) := by
    rw [← Bool.decide_and, decide_eq_decide]; omega
  rw [Nat.testBit_or, Nat.testBit_mul_two_pow, Nat.testBit_bool_toNat, Nat.testBit_bool_toNat, hin, Bool.and_assoc]

/-- The words whose scanned bits are 0, by their top bit and their bit 0. -/
theorem toNat_eq_topBit_or_lowBit_iff {W : Nat} (p : Word W) (t b : Bool) (hW : 2 ≤ W) :
    p.toNat = t.toNat * 2 ^ (W - 1) ||| b.toNat ↔
      (∀ i, 1 ≤ i → i ≤ W - 2 → p.getLsbD i = false) ∧ p.getLsbD (W - 1) = t ∧ p.getLsbD 0 = b := by
  have hne : 0 ≠ W - 1 := by omega
  constructor
  · intro h
    have hbit (i : Nat) : p.getLsbD i = (decide (i = W - 1) && t || decide (i = 0) && b) := by
      rw [← BitVec.testBit_toNat, h, testBit_topBit_or_lowBit]
    refine ⟨fun i h1 hi => ?_, ?_, ?_⟩
    · rw [hbit, decide_eq_false (by omega), decide_eq_false (by omega)]; rfl
    · simp [hbit, hne.symm]
    · simp [hbit, hne]
  · rintro ⟨hzero, rfl, rfl⟩
    apply Nat.eq_of_testBit_eq
    intro i
    rw [BitVec.testBit_toNat, testBit_topBit_or_lowBit]
    by_cases htop : i = W - 1
    · simp [htop, hne.symm]
    by_cases hlow : i = 0
    · simp [hlow, hne]
    rw [decide_eq_false htop, decide_eq_false hlow]
    obtain hi | hi := Nat.lt_or_ge i W
    · exact hzero i (by omega) (by omega)
    · exact p.getLsbD_of_ge i hi

/-- The two operands whose scanned bits are 0 and whose bit 0 is 1 (rule R62). -/
theorem toNat_eq_one_or_topBit_or_one_iff {W : Nat} (p : Word W) (hW : 2 ≤ W) :
    p.toNat = 1 ∨ p.toNat = 2 ^ (W - 1) ||| 1 ↔
      (∀ i, 1 ≤ i → i ≤ W - 2 → p.getLsbD i = false) ∧ p.getLsbD 0 = true := by
  have topClear := toNat_eq_topBit_or_lowBit_iff p false true hW
  have topSet := toNat_eq_topBit_or_lowBit_iff p true true hW
  rw [Bool.toNat_false, Nat.zero_mul, Bool.toNat_true, Nat.zero_or] at topClear
  rw [Bool.toNat_true, Nat.one_mul] at topSet
  rw [topClear, topSet, ← and_or_left, ← or_and_right]
  simp

/-- Bit 0 of the shifted value is 0, so the mask of a scan down to bit 0 tests a value as the mask itself does (rule R62). -/
theorem hits_maskScan_zero {W : Nat} (p d : Word W) : hits d (maskScan p 0 (W - 1)) = hits d (maskOf p) := by
  obtain hW | hW := Nat.lt_or_ge W 2
  · rw [maskOf, show W - 1 = 0 by omega, show W - 2 = 0 by omega, maskScan, maskScan]
  · rw [maskScan_zero_eq p hW]
    split
    next h => rw [h.1, hits_bitAt d 0 (by omega), hits_zero_mask, getLsbD_shl1]; rfl
    next => rfl

section
variable {W : Nat} {m m' : Word W} (h : ∀ d, hits d m = hits d m') (P d : Word W) (n : Nat)
include h

/-- Masks that test every value alike generate the same values of `data`. -/
theorem genData_congr_mask : genData P m d n = genData P m' d n := by
  induction n with
  | zero => rfl
  | succ n ih => simp only [genData_succ, ih, Register.advance, h]

/-- Masks that test every value alike generate the same bits. -/
theorem genBit_congr_mask : genBit P m d n = genBit P m' d n := by
  rw [genBit_eq_bitOut, genBit_eq_bitOut, genData_congr_mask h]
  exact h _

end

/-- Settles O2: the scan by its cases; a scan down to bit 0 by its lowest position, which the test of ADV never sees. -/
theorem maskIsTheHighestScannedBit : Obligations.MaskIsTheHighestScannedBit := by
  refine ⟨fun W p => ?scan, by decide, ?wide, fun W p s hW => ⟨?operands, fun n => ?sequence⟩⟩
  case scan =>
    obtain ⟨hm, hzero⟩ | ⟨k, h1, hk, hm, hp, habove⟩ := maskOf_cases p
    · exact .inl ⟨hzero, by rw [hm, BitVec.toNat_zero]⟩
    · exact .inr ⟨k, h1, hk, hp, habove, by rw [hm, bitAt_toNat (by omega)]⟩
  case wide => rintro W (rfl | rfl | rfl) <;> decide
  case operands => rw [maskScan_zero_ne_maskOf_iff p hW, toNat_eq_one_or_topBit_or_one_iff p hW]
  case sequence =>
    have sameTest := hits_maskScan_zero p
    exact ⟨genBit_congr_mask sameTest _ s n, genData_congr_mask sameTest _ s n⟩

/-- Settles O3: INIT loads the registers of rule R60, whose values are read off; each corner case by what the scan finds. -/
theorem initLoadsConfigurationAndSeed : Obligations.InitLoadsConfigurationAndSeed := by
  refine ⟨?decodes, fun s p q hp hq => ?loads, fun W hW => ⟨?zero, ?one, ?topBit, fun hW3 => ?allOnes⟩, by decide,
    fun r b ins => ?workedExample⟩
  case decodes =>
    rintro W ⟨op, p, q⟩ rfl
    exact decode_opInit p q
  case loads =>
    have hdata : (BitVec.ofNat s.width q).toNat = q := by rw [BitVec.toNat_ofNat, Nat.mod_eq_of_lt hq]
    refine ⟨_, exec_init_of_lt s hp hq, ?polynomial, rfl, hdata, rfl, rfl, rfl, ?bitOut⟩
    case polynomial =>
      rw [Register.load_polynomial, BitVec.toNat_or, BitVec.toNat_ofNat, BitVec.toNat_ofNat, Nat.mod_eq_of_lt hp]
    case bitOut => rw [Register.bitOut_eq_decide, Register.load_data, hdata, Register.load_mask]
  case zero => exact maskOf_ofNat_toNat_eq_zero fun i _ _ => Nat.zero_testBit i
  case one => exact maskOf_ofNat_toNat_eq_zero fun i h1 _ => Nat.testBit_lt_two_pow (Nat.one_lt_two_pow (by omega))
  case topBit => exact maskOf_ofNat_toNat_eq_zero fun i _ _ => Nat.testBit_two_pow_of_ne (by omega)
  case allOnes =>
    rw [maskOf_of_getLsbD_highest hW3, bitAt_toNat (by omega)]
    rw [BitVec.getLsbD_ofNat, Nat.testBit_two_pow_sub_one, decide_eq_true (by omega), Bool.true_and]
  case workedExample =>
    have hp : 0x18 < 2 ^ 8 := by decide
    have hq : 0x08 < 2 ^ 8 := by decide
    have hload : Register.load 0x18#8 0x08#8 = ⟨0x19#8, 0x10#8, 0x08#8⟩ := by decide
    rw [exec_init_of_lt _ hp hq, State.withReg_mk, hload]

/-- A polynomial whose bit 0 is set is stored as it is (rule R61). -/
theorem or_one_of_getLsbD_zero {W : Nat} {p : Word W} (h : p.getLsbD 0 = true) : p ||| 1#W = p := by
  apply BitVec.eq_of_getLsbD_eq
  intro i hi
  rw [getLsbD_or_one p hi]
  by_cases hi0 : i = 0
  · rw [hi0, h, Bool.true_or]
  · rw [decide_eq_false hi0, Bool.or_false]

/-- Settles O4: the bits of the stored polynomial are those of `p ||| 1`. -/
theorem initForcesBitZero : Obligations.InitForcesBitZero := by
  refine ⟨fun s p q hW hp hq => ?stored, fun r b ins q hq => ?ruleExample⟩
  case stored =>
    have hbit (i : Nat) : (BitVec.ofNat s.width p ||| 1#s.width).getLsbD i = (p.testBit i || Nat.testBit 1 i) := by
      rw [← BitVec.testBit_toNat, ofNat_or_one_toNat hW hp, Nat.testBit_or]
    refine ⟨_, exec_init_of_lt s hp hq, ?bitZero, fun i h1 => ?otherBits, fun h0 => ?odd⟩
    case bitZero => exact (hbit 0).trans (Bool.or_true _)
    case otherBits =>
      have hone : Nat.testBit 1 i = false := Nat.testBit_lt_two_pow (Nat.one_lt_two_pow (by omega))
      rw [Register.load_polynomial, hbit, hone, Bool.or_false]
    case odd =>
      have hodd : (BitVec.ofNat s.width p).getLsbD 0 = true := by
        rw [BitVec.getLsbD_ofNat, h0, decide_eq_true (by omega), Bool.true_and]
      rw [Register.load_polynomial, or_one_of_getLsbD_zero hodd, BitVec.toNat_ofNat, Nat.mod_eq_of_lt hp]
  case ruleExample =>
    have hp : 0x18 < 2 ^ 8 := by decide
    have hpoly : 0x18#8 ||| 1#8 = 0x19#8 := by decide
    exact ⟨_, exec_init_of_lt ⟨8, r, b, ins⟩ hp hq, hpoly⟩

/-- Settles O5: INIT reads no register, and its mask is 0 where the scan finds nothing. -/
theorem initOverwritesTheEarlierConfiguration : Obligations.InitOverwritesTheEarlierConfiguration :=
  fun W r r' b ins _ _ hp hq =>
    ⟨_, exec_init_of_lt ⟨W, r, b, ins⟩ hp hq, exec_init_of_lt ⟨W, r', b, ins⟩ hp hq, rfl, maskOf_ofNat_toNat_eq_zero⟩

end Sys2Proof.Machine
end

section
/-! PROOFS. The statements of 41_advance.md: ADV's shift, test and XOR (rule R70), the bit it returns (rules R71, R72), and what
the commands leave unchanged (rule R73); and that the commands are total (rule R74, 60_exceptions.md rules R100, R112). First
the two cases of ADV, a hit and a miss. -/

namespace Sys2Proof.Machine

section
variable {W : Nat} (r : Register W)

/-- The test of ADV succeeds, in numbers (41_advance.md rule R71). -/
theorem Register.bitOut_iff : r.bitOut = true ↔ 2 * r.data.toNat % 2 ^ W &&& r.mask.toNat ≠ 0 := by
  rw [Register.bitOut_eq_decide, decide_eq_true_iff]

/-- With a single-bit mask the bit tested is that bit of the shifted value (rule R72). -/
theorem Register.bitOut_of_mask_eq_bitAt {k : Nat} (hk : k < W) (hm : r.mask = bitAt W k) :
    r.bitOut = (shl1 r.data).getLsbD k := by
  rw [Register.bitOut, hm, hits_bitAt r.data k hk]

variable {r}

theorem Register.advance_data_of_hit (h : r.bitOut = true) : r.advance.data = shl1 r.data ^^^ r.polynomial := by
  rw [Register.advance_data, if_pos h]

theorem Register.advance_data_of_miss (h : r.bitOut = false) : r.advance.data = shl1 r.data := by
  rw [Register.advance_data, h, if_neg Bool.false_ne_true]

end

/-- The tuple drives ADV: no reset, and `op = 01` (30_encoding.md rule R42). -/
theorem isAdv_iff {W : Nat} (inp : Input W) : isAdv inp = true ↔ inp.rst = false ∧ inp.cmd.op = 0b01#2 := by
  rw [isAdv, opAdv, Bool.and_eq_true, Bool.not_eq_true', decide_eq_true_iff]

/-- An ADV returns `bit_out` of the state before the step (41_advance.md rule R71). -/
theorem returnedBit_of_adv {W : Nat} (r : Register W) {inp : Input W} (rest : List (Input W))
    (hrst : inp.rst = false) (hop : inp.cmd.op = 0b01#2) :
    State.returnedBit ⟨W, r, true, inp :: rest⟩ = some r.bitOut := by
  rw [returnedBit_running, if_pos ((isAdv_iff inp).mpr ⟨hrst, hop⟩)]

/-- Settles O8: the three cases of a command that answers a next state. -/
theorem commandsChangeOnlyTheirRegisters : Obligations.CommandsChangeOnlyTheirRegisters := by
  intro i s t h
  obtain ⟨rfl, rfl⟩ | ⟨rfl, rfl⟩ | ⟨p, d, rfl, rfl⟩ := exec_cases h
  · exact ⟨t.reg, rfl, fun _ => rfl, nofun⟩
  · exact ⟨s.reg.advance, rfl, nofun, fun _ => ⟨s.reg.advance_polynomial, s.reg.advance_mask⟩⟩
  · exact ⟨Register.load p d, rfl, nofun, nofun⟩

/-- Settles O22: the bit tested is bit `k` of the shifted value, which the shift takes from bit `k-1`; on a hit it is 1, and so
is bit `k` of the polynomial, so that the XOR clears it. -/
theorem testedBitIsBelowTheMask : Obligations.TestedBitIsBelowTheMask := by
  intro W k r b ins h1 hk hm hp
  have hlt : k < W := by omega
  have htest : r.bitOut = (shl1 r.data).getLsbD k :=
    r.bitOut_of_mask_eq_bitAt hlt (hm.trans (bitAt_eq_ofNat W k).symm)
  refine ⟨?below, r.advance.data, exec_adv ⟨W, r, b, ins⟩, fun hhit => ?cleared⟩
  case below => rw [htest, getLsbD_shl1, decide_eq_true h1, decide_eq_true hlt, Bool.true_and, Bool.true_and]
  case cleared => rw [Register.advance_data_of_hit hhit, BitVec.getLsbD_xor, ← htest, hhit, hp, Bool.xor_self]

/-- Settles O6: the test in numbers says which of the two cases of ADV holds, and each gives the new `data`. -/
theorem advanceShiftsTestsAndXors : Obligations.AdvanceShiftsTestsAndXors := by
  refine ⟨?encoding, fun s => ⟨s.reg.advance.data, exec_adv s, fun htest => ?hit, fun htest => ?miss⟩⟩
  case encoding =>
    rintro W r ⟨op, p, q⟩ rest rfl
    exact ⟨decode_opAdv p q, returnedBit_of_adv r rest rfl rfl⟩
  case hit =>
    have hhit : s.reg.bitOut = true := s.reg.bitOut_iff.mpr htest
    exact ⟨hhit, by rw [Register.advance_data_of_hit hhit, BitVec.toNat_xor, shl1_toNat]⟩
  case miss =>
    have hmiss : s.reg.bitOut = false := Bool.eq_false_iff.mpr fun hhit => s.reg.bitOut_iff.mp hhit htest
    exact ⟨hmiss, by rw [Register.advance_data_of_miss hmiss, shl1_toNat]⟩

/-- The degenerate polynomials are values of a `W`-bit port (60_exceptions.md rule R112). -/
theorem degenerateOperand_lt {W p : Nat} (hW : 1 ≤ W)
    (h : p = 0 ∨ p = 1 ∨ p = 2 ^ (W - 1) ∨ p = 2 ^ (W - 1) ||| 1) : p < 2 ^ W := by
  have hone : 1 < 2 ^ W := Nat.one_lt_two_pow (by omega)
  have htop : 2 ^ (W - 1) < 2 ^ W := Nat.two_pow_pred_lt_two_pow hW
  obtain rfl | rfl | rfl | rfl := h
  · exact Nat.two_pow_pos W
  · exact hone
  · exact htop
  · exact Nat.or_lt_two_pow htop hone

/-- A command never faults: there is no fault (60_exceptions.md rule R100). -/
theorem exec_ne_fault (i : Instr) (s : State) (f : Fault) : exec i s ≠ .fault f := nomatch f

/-- Settles O10: each command's next state is known, and the degenerate operands fit their ports. -/
theorem commandsAreTotalAndNeverFault : Obligations.CommandsAreTotalAndNeverFault := by
  have initCompletes (s : State) {p q : Nat} (hp : p < 2 ^ s.width) (hq : q < 2 ^ s.width) :
      ∃ t, exec (.init p q) s = .next t := ⟨_, exec_init_of_lt s hp hq⟩
  refine ⟨fun s => ⟨⟨_, exec_idle s⟩, ⟨_, exec_adv s⟩⟩, fun s p q hp hq => initCompletes s hp hq,
    fun s p q hW hq hdeg => ?degenerate, fun i s f => ⟨exec_ne_fault i s f, step_ne_fault s f⟩⟩
  have hp : p < 2 ^ s.width := degenerateOperand_lt hW hdeg
  exact ⟨initCompletes s hp hq, initCompletes s hp (Nat.two_pow_pos _)⟩

/-- Settles O21: the step returns a bit exactly if its tuple drives ADV. -/
theorem returnedBitIsBitOutBeforeTheStep : Obligations.ReturnedBitIsBitOutBeforeTheStep := by
  refine fun W r inp rest => ⟨r.bitOut_iff, returnedBit_of_adv r rest, fun hother => ?none⟩
  have hnot : ¬ isAdv inp = true := fun h => by
    obtain ⟨hrst, hop⟩ := (isAdv_iff inp).mp h
    obtain hreset | hne := hother
    · exact Bool.false_ne_true (hrst.symm.trans hreset)
    · exact hne hop
  rw [returnedBit_running, if_neg hnot]

end Sys2Proof.Machine
end

section
/-! PROOFS. The statements of 42_idle_and_reserved.md: a stream without its IDLE steps (rule R80) and the refusal of the
reserved command (rule R81). First the tuples that are not IDLE, and what a step does at one that is. -/

namespace Sys2Proof.Machine

/-- The tuple drives something other than IDLE: a reset, or a command with another `op` (42_idle_and_reserved.md rule R80). -/
def isNotIdle {W : Nat} (inp : Input W) : Bool := inp.rst || decide (inp.cmd.op ≠ 0b00#2)

theorem isNotIdle_eq_false_iff {W : Nat} (inp : Input W) :
    isNotIdle inp = false ↔ inp.rst = false ∧ inp.cmd.op = 0b00#2 := by
  rw [isNotIdle, Bool.or_eq_false_iff, decide_eq_false_iff_not, not_not]

/-- An IDLE step leaves the registers (rule R80). -/
theorem Register.next_of_idle {W : Nat} (r : Register W) {inp : Input W} (h : isNotIdle inp = false) :
    r.next inp = some r := by
  obtain ⟨hrst, hop⟩ := (isNotIdle_eq_false_iff inp).mp h
  rw [Register.next, hrst, if_neg Bool.false_ne_true, if_pos hop]

/-- An IDLE step is not an ADV step, so it returns no bit (41_advance.md rule R71). -/
theorem isAdv_of_idle {W : Nat} {inp : Input W} (h : isNotIdle inp = false) : isAdv inp = false := by
  obtain ⟨-, hop⟩ := (isNotIdle_eq_false_iff inp).mp h
  rw [isAdv, hop, decide_eq_false (by decide), Bool.and_false]

/-- The stream without its IDLE steps has the same outcome and returns the same bits, by induction on the stream: an IDLE step
adds nothing to either, and any other step is taken by both runs. -/
theorem run_and_bitsReturned_filter_isNotIdle {W : Nat} (r : Register W) (ins rest : List (Input W)) :
    run ins.length ⟨W, r, true, ins ++ rest⟩ =
      run (ins.filter isNotIdle).length ⟨W, r, true, ins.filter isNotIdle ++ rest⟩ ∧
    bitsReturned ins.length ⟨W, r, true, ins ++ rest⟩ =
      bitsReturned (ins.filter isNotIdle).length ⟨W, r, true, ins.filter isNotIdle ++ rest⟩ := by
  induction ins generalizing r with
  | nil => exact ⟨rfl, rfl⟩
  | cons inp ins ih =>
    rw [List.length_cons, List.cons_append]
    cases hkept : isNotIdle inp with
    | false =>
      have hnext : r.next inp = some r := r.next_of_idle hkept
      rw [List.filter_cons_of_neg (Bool.eq_false_iff.mp hkept), run_succ_of_next_some _ _ hnext,
        bitsReturned_succ_of_next_some _ _ hnext, isAdv_of_idle hkept]
      exact ih r
    | true =>
      rw [List.filter_cons_of_pos hkept, List.length_cons, List.cons_append]
      cases hnext : r.next inp with
      | none => simp only [run_succ_of_next_none _ _ hnext, bitsReturned_succ_of_next_none _ _ hnext, and_self]
      | some r' =>
        obtain ⟨hrun, hbits⟩ := ih r'
        simp only [run_succ_of_next_some _ _ hnext, bitsReturned_succ_of_next_some _ _ hnext, hrun, hbits, and_self]

/-- Settles O7: IDLE answers its own state, `op = 00` decodes to it, and the two streams are compared by induction. -/
theorem idleStepsCanBeRemoved : Obligations.IdleStepsCanBeRemoved := by
  refine ⟨exec_idle, ?decodes, fun W r ins rest => run_and_bitsReturned_filter_isNotIdle r ins rest⟩
  rintro W ⟨op, p, q⟩ rfl
  exact decode_opIdle p q

/-- After the first reset step the reserved command is refused by its own name (rule R81). -/
theorem step_reserved {W : Nat} (r : Register W) (p q : Word W) (rest : List (Input W)) :
    step ⟨W, r, true, ⟨false, 0b11#2, p, q⟩ :: rest⟩ = .refused .reservedCommand := by
  rw [step_running]; rfl

/-- Settles O9: with `rst = 0` the step is refused, before the first reset step as after it; with `rst = 1` it is a reset step
whatever `op` holds. -/
theorem reservedCommandIsRefused : Obligations.ReservedCommandIsRefused := by
  refine ⟨exec_reserved11, ?stepped⟩
  rintro W r b ⟨op, p, q⟩ rest rfl
  refine ⟨decode_opReserved p q, step_reserved r p q rest, fun t hstep => ?noNextState, step_reset r b _ rest rfl⟩
  cases b with
  | false => exact nomatch (step_before_reset r _ rest rfl).symm.trans hstep
  | true => exact nomatch (step_reserved r p q rest).symm.trans hstep

end Sys2Proof.Machine
end

section
/-! PROOFS. The statements of 43_sequence_properties.md about streams: the sequence that INIT and the ADV steps after it give
(rules R86, R85), a mask of 0 (rule R88), `data = 0` (rule R89) and a step where feedback triggers (rule R90). First what a
stream of IDLE and ADV does to the registers, whatever they hold. -/

namespace Sys2Proof.Machine

/-- The bits of the sequence after one ADV are the bits of the sequence, one step later. -/
theorem genBit_advance {W : Nat} (r : Register W) (n : Nat) :
    genBit r.polynomial r.mask r.advance.data n = genBit r.polynomial r.mask r.data (n + 1) := by
  rw [genBit_eq_bitOut, genBit_eq_bitOut, genData_advance]

/-- A tuple of IDLE or ADV: an ADV advances the registers, an IDLE leaves them (rules R70, R80). -/
theorem isIdleOrAdv_cases {W : Nat} {inp : Input W} (h : isIdleOrAdv inp = true) (r : Register W) :
    (isAdv inp = true ∧ r.next inp = some r.advance) ∨ (isAdv inp = false ∧ r.next inp = some r) := by
  obtain ⟨rst, op, p, d⟩ := inp
  cases rst with
  | true => simp [isIdleOrAdv] at h
  | false =>
    obtain rfl | rfl | rfl | rfl := opcode_cases op
    · exact .inr ⟨rfl, rfl⟩
    · exact .inl ⟨rfl, rfl⟩
    · simp [isIdleOrAdv, opIdle, opAdv] at h
    · simp [isIdleOrAdv, opIdle, opAdv] at h

/-- ADV is one of IDLE and ADV. -/
theorem isIdleOrAdv_of_isAdv {W : Nat} {inp : Input W} (h : isAdv inp = true) : isIdleOrAdv inp = true := by
  obtain ⟨hrst, hop⟩ := (isAdv_iff inp).mp h
  rw [isIdleOrAdv, hrst, hop]; rfl

/-- A stream of IDLE and ADV runs to its end; it generates the sequence of the registers at its beginning, as many values and
bits of it as it has ADV, by induction on the stream. -/
theorem run_and_bitsReturned_of_isIdleOrAdv {W : Nat} (r : Register W) (ins rest : List (Input W))
    (hins : ∀ inp ∈ ins, isIdleOrAdv inp = true) :
    run ins.length ⟨W, r, true, ins ++ rest⟩ =
      .next ⟨W, ⟨r.polynomial, r.mask, genData r.polynomial r.mask r.data (ins.countP isAdv)⟩, true, rest⟩ ∧
    bitsReturned ins.length ⟨W, r, true, ins ++ rest⟩ =
      (List.range (ins.countP isAdv)).map (genBit r.polynomial r.mask r.data) := by
  induction ins generalizing r with
  | nil => exact ⟨rfl, rfl⟩
  | cons inp ins ih =>
    obtain ⟨hinp, hins⟩ := List.forall_mem_cons.mp hins
    rw [List.length_cons, List.cons_append]
    obtain ⟨hadv, hnext⟩ | ⟨hidle, hnext⟩ := isIdleOrAdv_cases hinp r
    · obtain ⟨hrun, hbits⟩ := ih r.advance hins
      rw [run_succ_of_next_some _ _ hnext, bitsReturned_succ_of_next_some _ _ hnext, hrun, hbits, hadv,
        List.countP_cons_of_pos hadv, List.range_succ_eq_map, List.map_cons, List.map_map]
      refine ⟨?registers, ?bits⟩
      case registers => rw [Register.advance_polynomial, Register.advance_mask, genData_advance]
      case bits =>
        refine congrArg (List.cons r.bitOut) (List.map_congr_left fun n _ => ?_)
        exact genBit_advance r n
    · rw [run_succ_of_next_some _ _ hnext, bitsReturned_succ_of_next_some _ _ hnext, hidle,
        List.countP_cons_of_neg (Bool.eq_false_iff.mp hidle)]
      exact ih r hins

/-- The same after an INIT: the sequence of its operands (rule R86). -/
theorem run_and_bitsReturned_of_init {W : Nat} (r : Register W) (p s : Word W) (ins rest : List (Input W))
    (hins : ∀ inp ∈ ins, isIdleOrAdv inp = true) :
    run (ins.length + 1) ⟨W, r, true, ⟨false, 0b10#2, p, s⟩ :: (ins ++ rest)⟩ =
      .next ⟨W, ⟨p ||| 1#W, maskOf p, seqData p s (ins.countP isAdv)⟩, true, rest⟩ ∧
    bitsReturned (ins.length + 1) ⟨W, r, true, ⟨false, 0b10#2, p, s⟩ :: (ins ++ rest)⟩ =
      seqBits p s (ins.countP isAdv) := by
  have hload : r.next ⟨false, 0b10#2, p, s⟩ = some (Register.load p s) := rfl
  rw [run_succ_of_next_some _ _ hload, bitsReturned_succ_of_next_some _ _ hload]
  exact run_and_bitsReturned_of_isIdleOrAdv (Register.load p s) ins rest hins

/-- Settles O34: after the registers that INIT loads, the stream generates their sequence. -/
theorem initThenAdvancesGiveTheSequence : Obligations.InitThenAdvancesGiveTheSequence :=
  fun _ r p s ins rest hins => run_and_bitsReturned_of_init r p s ins rest hins

/-- A stream that the host may drive runs to its end (70_reset_and_hazards.md rule R128 (b)). -/
theorem run_of_permitted {W : Nat} (r : Register W) (ins rest : List (Input W)) (hins : ∀ inp ∈ ins, permitted inp = true) :
    ∃ u : Register W, run ins.length ⟨W, r, true, ins ++ rest⟩ = .next ⟨W, u, true, rest⟩ := by
  induction ins generalizing r with
  | nil => exact ⟨r, rfl⟩
  | cons inp ins ih =>
    obtain ⟨hinp, hins⟩ := List.forall_mem_cons.mp hins
    obtain ⟨r', hnext⟩ := r.next_of_permitted hinp
    obtain ⟨u, hrun⟩ := ih r' hins
    exact ⟨u, (run_succ_of_next_some _ _ hnext).trans hrun⟩

/-- Settles O35: each run before the INIT ends in some registers, and from any registers the rest gives the sequence of the
operands, up to the number of ADV. -/
theorem outputIsAFunctionOfOperandsAndCount : Obligations.OutputIsAFunctionOfOperandsAndCount := by
  intro W r r' p q before before' ins ins' hbefore hbefore' hins hins' hcount
  obtain ⟨u, hu⟩ := run_of_permitted r before (⟨false, 0b10#2, p, q⟩ :: ins) hbefore
  obtain ⟨u', hu'⟩ := run_of_permitted r' before' (⟨false, 0b10#2, p, q⟩ :: ins') hbefore'
  obtain ⟨hrun, hbits⟩ := run_and_bitsReturned_of_init u p q ins [] hins
  obtain ⟨hrun', hbits'⟩ := run_and_bitsReturned_of_init u' p q ins' [] hins'
  rw [List.append_nil] at hrun hbits hrun' hbits'
  rw [← hcount] at hrun' hbits'
  exact ⟨u, u', _, hu, hu', hrun, hrun', hbits.trans hbits'.symm⟩

/-- With mask 0 no ADV returns 1 (rule R88). -/
theorem genBit_zero_mask {W : Nat} (P s : Word W) (n : Nat) : genBit P 0#W s n = false := hits_zero_mask _

/-- With mask 0 an ADV shifts `data` and does nothing else (rule R88). -/
theorem genData_zero_mask_toNat {W : Nat} (P s : Word W) (n : Nat) :
    (genData P 0#W s n).toNat = s.toNat * 2 ^ n % 2 ^ W := by
  induction n with
  | zero => rw [genData, pow_zero, Nat.mul_one, Nat.mod_eq_of_lt s.isLt]
  | succ n ih =>
    have hmiss : Register.bitOut ⟨P, 0#W, genData P 0#W s n⟩ = false := hits_zero_mask _
    rw [genData_succ, Register.advance_data_of_miss hmiss, shl1_toNat, ih, Nat.mul_mod_mod, pow_succ', Nat.mul_left_comm]

/-- The operands that give mask 0 (rule R88): the four combinations of the top bit and bit 0, where there are bits to scan. -/
theorem maskOf_eq_zero_iff_toNat {W : Nat} (p : Word W) :
    maskOf p = 0#W ↔ W < 3 ∨ p.toNat = 0 ∨ p.toNat = 1 ∨ p.toNat = 2 ^ (W - 1) ∨ p.toNat = 2 ^ (W - 1) ||| 1 := by
  rw [maskOf_eq_zero_iff]
  obtain hW | hW := Nat.lt_or_ge W 3
  · exact iff_of_true (fun i h1 hi => absurd hi (by omega)) (.inl hW)
  · have operand (t b : Bool) := toNat_eq_topBit_or_lowBit_iff p t b (by omega)
    have neither := operand false false
    have lowOnly := operand false true
    have topOnly := operand true false
    have both := operand true true
    simp only [Bool.toNat_false, Bool.toNat_true, Nat.zero_mul, Nat.one_mul, Nat.zero_or, Nat.or_zero]
      at neither lowOnly topOnly both
    rw [neither, lowOnly, topOnly, both, ← and_or_left, ← and_or_left, ← and_or_left]
    have corners : ∀ t b : Bool, (t = false ∧ b = false) ∨ (t = false ∧ b = true) ∨ (t = true ∧ b = false) ∨
        (t = true ∧ b = true) := by decide
    exact ⟨fun hzero => .inr ⟨hzero, corners _ _⟩, fun h => (h.resolve_left hW.not_gt).1⟩

/-- Settles O36: the operands by the scanned bits; the machine by the sequence of its registers, whose mask is 0. -/
theorem degenerateMaskOnlyShifts : Obligations.DegenerateMaskOnlyShifts := by
  refine ⟨fun W p _ => maskOf_eq_zero_iff_toNat p, fun W n P s noise rest hop => ?advances⟩
  have hadv : ∀ inp ∈ (List.range n).map fun i => (⟨false, noise i⟩ : Input W), isAdv inp = true :=
    List.forall_mem_map.mpr fun i _ => (isAdv_iff _).mpr ⟨rfl, hop i⟩
  have hcount := List.countP_eq_length.mpr hadv
  obtain ⟨hrun, hbits⟩ := run_and_bitsReturned_of_isIdleOrAdv ⟨P, 0#W, s⟩ _ rest
    fun inp hinp => isIdleOrAdv_of_isAdv (hadv inp hinp)
  rw [hcount, List.length_map, List.length_range] at hrun hbits
  refine ⟨_, hrun, ?bits, genData_zero_mask_toNat P s n, fun hn => ?drained⟩
  case bits =>
    rw [hbits, List.map_congr_left fun i _ => genBit_zero_mask P s i, List.map_const', List.length_range]
  case drained =>
    rw [genData_zero_mask_toNat, Nat.mod_eq_zero_of_dvd (Dvd.dvd.mul_left (pow_dvd_pow 2 hn) _)]

/-- `data = 0` is a fixed point of ADV (rule R89). -/
theorem Register.advance_of_zero_data {W : Nat} (P m : Word W) : Register.advance ⟨P, m, 0#W⟩ = ⟨P, m, 0#W⟩ := by
  simp [Register.advance]

theorem genData_zero_data {W : Nat} (P m : Word W) (n : Nat) : genData P m 0#W n = 0#W := by
  induction n with
  | zero => rfl
  | succ n ih => rw [genData_succ, ih, Register.advance_of_zero_data]

theorem genBit_zero_data {W : Nat} (P m : Word W) (n : Nat) : genBit P m 0#W n = false := by
  rw [genBit_eq_bitOut, genData_zero_data]
  exact hits_zero_data m

/-- Of the permitted steps only INIT can make `data` differ from 0 again (rule R89). -/
theorem Register.next_of_zero_data {W : Nat} (P m : Word W) {inp : Input W} (hperm : permitted inp = true)
    (hinit : inp.rst = true ∨ inp.cmd.op ≠ 0b10#2) :
    ∃ P' m' : Word W, Register.next ⟨P, m, 0#W⟩ inp = some ⟨P', m', 0#W⟩ := by
  obtain ⟨rst, op, p, d⟩ := inp
  cases rst with
  | true => exact ⟨0#W, 0#W, rfl⟩
  | false =>
    obtain rfl | rfl | rfl | rfl := opcode_cases op
    · exact ⟨P, m, rfl⟩
    · exact ⟨P, m, congrArg some (Register.advance_of_zero_data P m)⟩
    · simp at hinit
    · simp [permitted, opReserved] at hperm

/-- A permitted stream without INIT keeps `data = 0` and returns no 1, by induction on the stream (rule R89). -/
theorem run_and_bitsReturned_of_zero_data {W : Nat} (P m : Word W) (ins rest : List (Input W))
    (hins : ∀ inp ∈ ins, permitted inp = true ∧ (inp.rst = true ∨ inp.cmd.op ≠ 0b10#2)) :
    ∃ P' m' : Word W,
      run ins.length ⟨W, ⟨P, m, 0#W⟩, true, ins ++ rest⟩ = .next ⟨W, ⟨P', m', 0#W⟩, true, rest⟩ ∧
      ∀ bit ∈ bitsReturned ins.length ⟨W, ⟨P, m, 0#W⟩, true, ins ++ rest⟩, bit = false := by
  induction ins generalizing P m with
  | nil => exact ⟨P, m, rfl, nofun⟩
  | cons inp ins ih =>
    obtain ⟨⟨hperm, hinit⟩, hins⟩ := List.forall_mem_cons.mp hins
    obtain ⟨P₁, m₁, hnext⟩ := Register.next_of_zero_data P m hperm hinit
    obtain ⟨P', m', hrun, hbits⟩ := ih P₁ m₁ hins
    refine ⟨P', m', (run_succ_of_next_some _ _ hnext).trans hrun, fun bit hbit => ?_⟩
    rw [List.length_cons, List.cons_append, bitsReturned_succ_of_next_some _ _ hnext, List.mem_append] at hbit
    obtain hfirst | hlater := hbit
    · have hzero : Register.bitOut ⟨P, m, 0#W⟩ = false := hits_zero_data m
      cases hadv : isAdv inp with
      | true => simpa [hadv, hzero] using hfirst
      | false => simp [hadv] at hfirst
    · exact hbits bit hlater

/-- Settles O37: the fixed point, the sequence from it, and the streams that stay in it. -/
theorem zeroDataStaysZero : Obligations.ZeroDataStaysZero := by
  refine fun W P m => ⟨fun b ins => ?fixedPoint, fun p n => ⟨genBit_zero_data _ _ n, genData_zero_data _ _ n⟩,
    run_and_bitsReturned_of_zero_data P m⟩
  rw [exec_adv, State.withReg_mk, Register.advance_of_zero_data]

/-- Settles O39: INIT and one ADV give the first value and the first bit of the sequence; a hit XORs the polynomial into the
shifted seed. -/
theorem feedbackXorsTheStoredPolynomial : Obligations.FeedbackXorsTheStoredPolynomial := by
  refine ⟨fun W r p s c hop htest => ?general, fun r => ⟨?loaded, ?ruleInstance⟩⟩
  case general =>
    have hadv : isAdv (⟨false, c⟩ : Input W) = true := (isAdv_iff _).mpr ⟨rfl, hop⟩
    have hhit : (Register.load p s).bitOut = true := (Register.load p s).bitOut_iff.mpr htest
    have hbits : seqBits p s 1 = [true] := congrArg (fun b => [b]) hhit
    have hdata : seqData p s 1 = shl1 s ^^^ (p ||| 1#W) :=
      (genData_succ _ _ s 0).trans (Register.advance_data_of_hit hhit)
    have hseq := run_and_bitsReturned_of_init r p s [⟨false, c⟩] [] (by simpa using isIdleOrAdv_of_isAdv hadv)
    rw [List.countP_cons_of_pos hadv, List.countP_nil, hbits] at hseq
    obtain ⟨hrun, hreturned⟩ := hseq
    exact ⟨_, hrun, hreturned, by rw [hdata, ← BitVec.xor_assoc, BitVec.xor_self, BitVec.zero_xor]⟩
  case loaded =>
    have hload : Register.load 0x18#8 0x08#8 = ⟨0x19#8, 0x10#8, 0x08#8⟩ := by decide
    rw [run_succ_of_next (step_init r _ _ _), run_zero, hload]
  case ruleInstance =>
    have hseq := run_and_bitsReturned_of_init r 0x18#8 0x08#8 [⟨false, 0b01#2, 0#8, 0#8⟩] [] (by decide)
    have hregs : Register.mk (0x18#8 ||| 1#8) (maskOf 0x18#8) (seqData 0x18#8 0x08#8 1) = ⟨0x19#8, 0x10#8, 0x09#8⟩ := by
      decide
    have hbits : seqBits 0x18#8 0x08#8 1 = [true] := by decide
    rwa [List.countP_cons_of_pos rfl, List.countP_nil, hregs, hbits] at hseq

end Sys2Proof.Machine
end

section
/-! PROOFS. The statements of 43_sequence_properties.md about the bits of `data`: the bits above the mask (rule R91), the bits below
it (rule R92), two widths (rule R94) and the lower bound of the scan (rule R95). First the bits of the sequence one by one, then
two sequences whose seeds and polynomials agree on their low bits and whose masks test the same bit. -/

namespace Sys2Proof.Machine

section
variable {W : Nat} (P m s : Word W) (n : Nat)

/-- The next value of `data`, bit by bit: the shifted bit, and the polynomial's at a hit (rule R86). -/
theorem getLsbD_genData_succ (i : Nat) :
    (genData P m s (n + 1)).getLsbD i =
      ((shl1 (genData P m s n)).getLsbD i ^^ (genBit P m s n && P.getLsbD i)) := by
  rw [genData_succ, genBit_eq_bitOut]
  cases hbit : Register.bitOut ⟨P, m, genData P m s n⟩ with
  | true => rw [Register.advance_data_of_hit hbit, BitVec.getLsbD_xor, Bool.true_and]
  | false => rw [Register.advance_data_of_miss hbit, Bool.false_and, Bool.xor_false]

/-- The next value of `data` in numbers (rule R86). -/
theorem genData_succ_toNat :
    (genData P m s (n + 1)).toNat =
      (2 * (genData P m s n).toNat % 2 ^ W) ^^^ (if genBit P m s n then P.toNat else 0) := by
  rw [genData_succ, genBit_eq_bitOut]
  cases hbit : Register.bitOut ⟨P, m, genData P m s n⟩ with
  | true => rw [Register.advance_data_of_hit hbit, BitVec.toNat_xor, shl1_toNat, if_pos rfl]
  | false => rw [Register.advance_data_of_miss hbit, shl1_toNat, if_neg Bool.false_ne_true, Nat.xor_zero]

end

/-- The shift moves every bit up by one place. -/
theorem getLsbD_shl1_of_pos {W i : Nat} (v : Word W) (h1 : 1 ≤ i) (hi : i < W) :
    (shl1 v).getLsbD i = v.getLsbD (i - 1) := by
  rw [getLsbD_shl1, decide_eq_true h1, decide_eq_true hi, Bool.true_and, Bool.true_and]

/-- A mask of value `2 ^ k` is the bit `k` that the scan stopped at (40_initialize.md rule R62). -/
theorem maskOf_of_toNat_eq {W k : Nat} {p : Word W} (hk : k ≤ W - 2) (hm : (maskOf p).toNat = 2 ^ k) :
    maskOf p = bitAt W k ∧ p.getLsbD k = true ∧ ∀ j, k < j → j ≤ W - 2 → p.getLsbD j = false := by
  obtain ⟨hzero, -⟩ | ⟨i, h1, hi, hbit, hp, habove⟩ := maskOf_cases p
  · rw [hzero, BitVec.toNat_zero] at hm
    exact absurd hm.symm (NeZero.ne _)
  · rw [hbit, bitAt_toNat (by omega)] at hm
    obtain rfl := Nat.pow_right_injective (le_refl 2) hm
    exact ⟨hbit, hp, habove⟩

/-- With mask `1 << k` the bit returned is bit `k-1` of `data` (41_advance.md rule R72). -/
theorem genBit_bitAt {W k : Nat} (P s : Word W) (n : Nat) (h1 : 1 ≤ k) (hk : k < W) :
    genBit P (bitAt W k) s n = (genData P (bitAt W k) s n).getLsbD (k - 1) := by
  rw [genBit_eq_bitOut, Register.bitOut_of_mask_eq_bitAt _ hk rfl, getLsbD_shl1_of_pos _ h1 hk]

/-! The low bits of two words, at one width or at two. -/

/-- The two words have the same bits below bit `n`. -/
def AgreeBelow (n : Nat) {W W' : Nat} (v : Word W) (v' : Word W') : Prop :=
  ∀ i, i < n → v.getLsbD i = v'.getLsbD i

/-- The two masks test words that agree below bit `n` alike. -/
def TestAlike (n : Nat) {W W' : Nat} (m : Word W) (m' : Word W') : Prop :=
  ∀ (d : Word W) (d' : Word W'), AgreeBelow n d d' → hits d m = hits d' m'

section
variable {n W W' : Nat}

theorem agreeBelow_iff {v : Word W} {v' : Word W'} : AgreeBelow n v v' ↔ v.toNat % 2 ^ n = v'.toNat % 2 ^ n := by
  have bit {V : Nat} (w : Word V) (i : Nat) : (w.toNat % 2 ^ n).testBit i = (decide (i < n) && w.getLsbD i) := by
    rw [Nat.testBit_mod_two_pow, BitVec.testBit_toNat]
  constructor
  · intro h
    apply Nat.eq_of_testBit_eq
    intro i
    rw [bit, bit]
    by_cases hi : i < n
    · rw [h i hi]
    · rw [decide_eq_false hi, Bool.false_and, Bool.false_and]
  · intro h i hi
    have hbit := bit v i
    rwa [h, bit, decide_eq_true hi, Bool.true_and, Bool.true_and, eq_comm] at hbit

theorem AgreeBelow.shl1 {v : Word W} {v' : Word W'} (h : AgreeBelow n v v') (hW : n ≤ W) (hW' : n ≤ W') :
    AgreeBelow n (shl1 v) (shl1 v') := fun i hi => by
  rw [getLsbD_shl1, getLsbD_shl1, h (i - 1) (by omega), decide_eq_true (show i < W by omega),
    decide_eq_true (show i < W' by omega)]

theorem testAlike_zero : TestAlike n (0#W) (0#W') := fun d d' _ => by rw [hits_zero_mask, hits_zero_mask]

/-- A single-bit mask tests the bit below it (41_advance.md rule R72). -/
theorem testAlike_bitAt {k : Nat} (hk : k ≤ n) (hW : k < W) (hW' : k < W') : TestAlike n (bitAt W k) (bitAt W' k) :=
  fun d d' h => by
    rw [hits_bitAt d k hW, hits_bitAt d' k hW', getLsbD_shl1, getLsbD_shl1, decide_eq_true hW, decide_eq_true hW']
    obtain rfl | h1 := Nat.eq_zero_or_pos k
    · rfl
    · rw [h (k - 1) (by omega)]

section
variable {P m s : Word W} {P' m' s' : Word W'} (hW : n ≤ W) (hW' : n ≤ W') (hm : TestAlike n m m') (hP : AgreeBelow n P P')
  (hs : AgreeBelow n s s')
include hW hW' hm hP hs

/-- The bits of `data` below bit `n` evolve by themselves if the mask tests one of them or none (rule R92). -/
theorem genData_agreeBelow (t : Nat) : AgreeBelow n (genData P m s t) (genData P' m' s' t) := by
  induction t with
  | zero => exact hs
  | succ t ih =>
    intro i hi
    have hbit : genBit P m s t = genBit P' m' s' t := hm _ _ ih
    rw [getLsbD_genData_succ, getLsbD_genData_succ, hbit, ih.shl1 hW hW' i hi, hP i hi]

/-- And the bits returned are the same (rule R92). -/
theorem genBit_eq_of_agreeBelow (t : Nat) : genBit P m s t = genBit P' m' s' t :=
  hm _ _ (genData_agreeBelow hW hW' hm hP hs t)

/-- Both in the form of rule R92: the same bits, and the same `data mod 2^n`. -/
theorem sequence_eq_of_agreeBelow (t : Nat) :
    genBit P m s t = genBit P' m' s' t ∧ (genData P m s t).toNat % 2 ^ n = (genData P' m' s' t).toNat % 2 ^ n :=
  ⟨genBit_eq_of_agreeBelow hW hW' hm hP hs t, agreeBelow_iff.mp (genData_agreeBelow hW hW' hm hP hs t)⟩

end

/-- Operands that agree below bit `n` are stored as polynomials that agree there (40_initialize.md rule R61). -/
theorem AgreeBelow.or_one {p : Word W} {p' : Word W'} (h : AgreeBelow n p p') (hW : n ≤ W) (hW' : n ≤ W') :
    AgreeBelow n (p ||| 1#W) (p' ||| 1#W') := fun i hi => by
  rw [getLsbD_or_one p (by omega), getLsbD_or_one p' (by omega), h i hi]

end

/-- Operands that agree below the narrower one's top bit, the wider one having no scanned bit from there on, give mask 0 both or
the same single bit, which stands below that top bit (rule R94). -/
theorem maskOf_of_agreeBelow {W W' : Nat} {p : Word W} {p' : Word W'} (hWW' : W ≤ W') (hlow : AgreeBelow (W - 1) p p')
    (hhigh : ∀ i, 1 ≤ i → W - 1 ≤ i → i ≤ W' - 2 → p'.getLsbD i = false) :
    (maskOf p = 0#W ∧ maskOf p' = 0#W') ∨
    ∃ k, 1 ≤ k ∧ k ≤ W - 2 ∧ maskOf p = bitAt W k ∧ maskOf p' = bitAt W' k := by
  obtain ⟨hm', hzero⟩ | ⟨k, h1, hk, hm', hp', habove⟩ := maskOf_cases p'
  · refine .inl ⟨(maskOf_eq_zero_iff p).mpr fun i h1 hi => ?_, hm'⟩
    rw [hlow i (by omega), hzero i h1 (by omega)]
  · have hk' : k < W - 1 := Nat.lt_of_not_le fun hle => by simp [hhigh k h1 hle hk] at hp'
    refine .inr ⟨k, h1, by omega, ?_, hm'⟩
    obtain ⟨-, hzero⟩ | ⟨j, hj1, hj, hm, hp, hover⟩ := maskOf_cases p
    · simp [← hlow k hk', hzero k h1 (by omega)] at hp'
    · obtain hlt | rfl | hgt := Nat.lt_trichotomy j k
      · simp [← hlow k hk', hover k hlt (by omega)] at hp'
      · exact hm
      · simp [hlow j (by omega), habove j hgt (by omega)] at hp

/-- Such masks test the same bit, or none. -/
theorem testAlike_maskOf {W W' : Nat} {p : Word W} {p' : Word W'} (hWW' : W ≤ W') (hlow : AgreeBelow (W - 1) p p')
    (hhigh : ∀ i, 1 ≤ i → W - 1 ≤ i → i ≤ W' - 2 → p'.getLsbD i = false) :
    TestAlike (W - 1) (maskOf p) (maskOf p') := by
  obtain ⟨hm, hm'⟩ | ⟨k, h1, hk, hm, hm'⟩ := maskOf_of_agreeBelow hWW' hlow hhigh
  · rw [hm, hm']; exact testAlike_zero
  · rw [hm, hm']; exact testAlike_bitAt (by omega) (by omega) (by omega)

/-- The next value of `data` above bit 0: the bit below moves up, and the operand's bit is added at a hit. -/
theorem getLsbD_seqData_succ {W : Nat} (p s : Word W) (n : Nat) {i : Nat} (h1 : 1 ≤ i) (hi : i < W) :
    (seqData p s (n + 1)).getLsbD i = ((seqData p s n).getLsbD (i - 1) ^^ (seqBit p s n && p.getLsbD i)) := by
  have hne : i ≠ 0 := by omega
  rw [seqData, getLsbD_genData_succ, getLsbD_shl1_of_pos _ h1 hi, getLsbD_or_one p hi, decide_eq_false hne, Bool.or_false]
  rfl

/-! The bits from the mask upward. -/

section
variable {W k : Nat} {p : Word W} (s : Word W) (h1 : 1 ≤ k) (hk : k ≤ W - 2) (hm : (maskOf p).toNat = 2 ^ k)
include h1 hk hm

/-- The bit returned is bit `k-1` of `data` (rule R92). -/
theorem seqBit_eq_getLsbD (n : Nat) : seqBit p s n = (seqData p s n).getLsbD (k - 1) := by
  rw [seqBit, seqData, (maskOf_of_toNat_eq hk hm).1, genBit_bitAt _ _ _ h1 (by omega)]

/-- Bit `k` is 0 after every ADV: at a hit it cancels against the polynomial's (rule R91 (a)). -/
theorem getLsbD_seqData_mask (n : Nat) : (seqData p s (n + 1)).getLsbD k = false := by
  obtain ⟨-, hp, -⟩ := maskOf_of_toNat_eq hk hm
  rw [getLsbD_seqData_succ p s n h1 (by omega), ← seqBit_eq_getLsbD s h1 hk hm, hp, Bool.and_true, Bool.xor_self]

/-- The bits between bit `k` and the top bit only move upward (rule R91 (b)). -/
theorem getLsbD_seqData_above (n : Nat) {j : Nat} (hkj : k < j) (hj : j ≤ W - 2) :
    (seqData p s (n + 1)).getLsbD j = (seqData p s n).getLsbD (j - 1) := by
  obtain ⟨-, -, habove⟩ := maskOf_of_toNat_eq hk hm
  rw [getLsbD_seqData_succ p s n (by omega) (by omega), habove j hkj hj, Bool.and_false, Bool.xor_false]

/-- Each ADV drains one more bit from bit `k` upward, short of the top bit (rule R91 (d)). -/
theorem getLsbD_seqData_drained (n : Nat) {j : Nat} (hkj : k ≤ j) (hjn : j ≤ k + n) (hj : j ≤ W - 2) :
    (seqData p s (n + 1)).getLsbD j = false := by
  induction n generalizing j with
  | zero =>
    obtain rfl : j = k := by omega
    exact getLsbD_seqData_mask s h1 hk hm 0
  | succ n ih =>
    obtain rfl | hlt := hkj.eq_or_lt
    · exact getLsbD_seqData_mask s h1 hk hm (n + 1)
    · rw [getLsbD_seqData_above s h1 hk hm (n + 1) hlt hj, ih (by omega) (by omega) (by omega)]

/-- Once bit `W-2` is drained, the top bit holds what the latest hit added to it (rule R91 (d)). -/
theorem getLsbD_seqData_top_drained (n : Nat) (hn : W - 1 ≤ k + n) :
    (seqData p s (n + 1)).getLsbD (W - 1) = (seqBit p s n && p.getLsbD (W - 1)) := by
  obtain ⟨n, rfl⟩ : ∃ n', n = n' + 1 := ⟨n - 1, by omega⟩
  rw [getLsbD_seqData_succ p s _ (by omega) (by omega),
    getLsbD_seqData_drained s h1 hk hm n (j := W - 1 - 1) (by omega) (by omega) (by omega), Bool.false_xor]

/-- If the operand's top bit is 0 the top bit drains like the others (rule R91 (d)). -/
theorem getLsbD_seqData_all_drained (htop : p.getLsbD (W - 1) = false) (n : Nat) {j : Nat} (hkj : k ≤ j) (hjn : j ≤ k + n)
    (hj : j ≤ W - 1) : (seqData p s (n + 1)).getLsbD j = false := by
  obtain rfl | hlt := hj.eq_or_lt
  · rw [getLsbD_seqData_top_drained s h1 hk hm n hjn, htop, Bool.and_false]
  · exact getLsbD_seqData_drained s h1 hk hm n hkj hjn (by omega)

/-- If the operand's top bit is 0, `data` is a `k`-bit value after `W-k` steps (rule R91 (d)). -/
theorem seqData_succ_toNat_lt (htop : p.getLsbD (W - 1) = false) (n : Nat) (hn : W - k ≤ n + 1) :
    (seqData p s (n + 1)).toNat < 2 ^ k := by
  refine Nat.lt_pow_two_of_testBit _ fun j hj => ?_
  rw [BitVec.testBit_toNat]
  obtain hjW | hjW := Nat.lt_or_ge j W
  · exact getLsbD_seqData_all_drained s h1 hk hm htop n hj (by omega) (by omega)
  · exact BitVec.getLsbD_of_ge _ j hjW

end

/-- The low `k` bits are those of a `k`-bit Galois LFSR (rule R92). -/
theorem seqData_succ_mod {W k : Nat} (p s : Word W) (hk : k ≤ W) (n : Nat) :
    (seqData p s (n + 1)).toNat % 2 ^ k =
      (2 * ((seqData p s n).toNat % 2 ^ k) % 2 ^ k) ^^^ (if seqBit p s n then (p ||| 1#W).toNat % 2 ^ k else 0) := by
  have hdvd : 2 ^ k ∣ 2 ^ W := pow_dvd_pow 2 hk
  rw [seqData, genData_succ_toNat, Nat.xor_mod_two_pow, Nat.mod_mod_of_dvd _ hdvd, Nat.mul_mod_mod,
    apply_ite (· % 2 ^ k), Nat.zero_mod]
  rfl

/-- Masks of one value `2 ^ k` test the bit below bit `k` at both widths (rule R92). -/
theorem testAlike_maskOf_of_toNat_eq {W W' k : Nat} {p : Word W} {p' : Word W'} (h1 : 1 ≤ k) (hk : k ≤ W - 2) (hk' : k ≤ W' - 2)
    (hm : (maskOf p).toNat = 2 ^ k) (hm' : (maskOf p').toNat = 2 ^ k) : TestAlike k (maskOf p) (maskOf p') := by
  rw [(maskOf_of_toNat_eq hk hm).1, (maskOf_of_toNat_eq hk' hm').1]
  exact testAlike_bitAt le_rfl (by omega) (by omega)

/-- Settles O40: the seed's high bits by the agreement of the sequences below bit `k`, the others by the bits of one ADV and by
induction on their number. -/
theorem bitsAboveTheMaskDrain : Obligations.BitsAboveTheMaskDrain := by
  refine fun W k p s h1 hk hm => ⟨fun s' hs' n => ?seedBits, fun n => ⟨?bitK, fun j hkj hj => ?between, ?topBit,
    fun htop => ⟨fun j hkj hj => ?drained, fun hn => ?bounded⟩,
    fun htop => ⟨fun j hkj hj => ?drainedBelowTop, fun hn => ?topReturned⟩⟩⟩
  case seedBits =>
    exact genBit_eq_of_agreeBelow (by omega) (by omega) (testAlike_maskOf_of_toNat_eq h1 hk hk hm hm) (fun _ _ => rfl)
      (agreeBelow_iff.mpr hs') n
  case bitK => exact getLsbD_seqData_mask s h1 hk hm n
  case between => exact getLsbD_seqData_above s h1 hk hm n hkj hj
  case topBit => exact getLsbD_seqData_succ p s n (by omega) (by omega)
  case drained => exact getLsbD_seqData_all_drained s h1 hk hm htop n hkj (by omega) (by omega)
  case bounded => exact seqData_succ_toNat_lt s h1 hk hm htop n hn
  case drainedBelowTop => exact getLsbD_seqData_drained s h1 hk hm n hkj (by omega) (by omega)
  case topReturned => rw [getLsbD_seqData_top_drained s h1 hk hm n (by omega), htop, Bool.and_true]

/-- Settles O41: one ADV on the low bits; two sequences that agree below bit `k`; and two that agree below bit `W-1`, where the
masks of their operands test alike. -/
theorem onlyTheLowBitsMatter : Obligations.OnlyTheLowBitsMatter := by
  refine ⟨fun W k p s h1 hk hm n => ⟨?returned, seqData_succ_mod p s (by omega) n⟩,
    fun W W' k p s p' s' h1 hk hk' hm hm' hp hs n => ?sameLowBits, fun W p p' s hp n => ?topBitFree⟩
  case returned =>
    rw [Nat.testBit_mod_two_pow, BitVec.testBit_toNat, decide_eq_true (by omega), Bool.true_and,
      seqBit_eq_getLsbD s h1 hk hm]
  case sameLowBits =>
    have htest := testAlike_maskOf_of_toNat_eq h1 hk hk' hm hm'
    exact sequence_eq_of_agreeBelow (by omega) (by omega) htest (agreeBelow_iff.mpr hp) (agreeBelow_iff.mpr hs) n
  case topBitFree =>
    have hW : W - 1 ≤ W := Nat.sub_le W 1
    have htest := testAlike_maskOf (p := p) (p' := p') le_rfl hp fun i h1 hlow hi => absurd hi (by omega)
    have hP : AgreeBelow (W - 1) (p ||| 1#W) (p' ||| 1#W) := AgreeBelow.or_one hp hW hW
    have hseed : AgreeBelow (W - 1) s s := fun _ _ => rfl
    exact sequence_eq_of_agreeBelow hW hW htest hP hseed n

/-- A number on a narrow port and on a wide one: the bits below the narrow port's top bit are the same (rule R94). -/
theorem ofNat_agreeBelow {n W W' : Nat} (v : Nat) (hW : n ≤ W) (hW' : n ≤ W') :
    AgreeBelow n (BitVec.ofNat W v) (BitVec.ofNat W' v) := fun i hi => by
  rw [BitVec.getLsbD_ofNat, BitVec.getLsbD_ofNat, decide_eq_true (show i < W by omega), decide_eq_true (show i < W' by omega)]

/-- Settles O42: the two operands agree below the narrow top bit and the wide one is 0 from there on, so the masks are the same and
test alike; the example by evaluation. -/
theorem widthsAgreeBelowTheNarrowTopBit : Obligations.WidthsAgreeBelowTheNarrowTopBit := by
  refine ⟨fun W W' p s h1 hWW' hp => ?agree, by decide⟩
  have hW : W - 1 ≤ W := Nat.sub_le W 1
  have hW' : W - 1 ≤ W' := by omega
  have hlow := ofNat_agreeBelow p hW hW'
  have hhigh (i : Nat) (_ : 1 ≤ i) (hi : W - 1 ≤ i) (_ : i ≤ W' - 2) : (BitVec.ofNat W' p).getLsbD i = false := by
    have hbit : p.testBit i = false := Nat.testBit_lt_two_pow (hp.trans_le (Nat.pow_le_pow_right (by omega) hi))
    rw [BitVec.getLsbD_ofNat, hbit, Bool.and_false]
  have htest := testAlike_maskOf hWW' hlow hhigh
  have hP := hlow.or_one hW hW'
  have hseed := ofNat_agreeBelow s hW hW'
  refine ⟨?mask, ?polynomial, sequence_eq_of_agreeBelow hW hW' htest hP hseed⟩
  case mask =>
    obtain ⟨hm, hm'⟩ | ⟨k, h1, hk, hm, hm'⟩ := maskOf_of_agreeBelow hWW' hlow hhigh
    · rw [hm, hm', BitVec.toNat_zero, BitVec.toNat_zero]
    · rw [hm, hm', bitAt_toNat (by omega), bitAt_toNat (by omega)]
  case polynomial =>
    have hpW : p < 2 ^ W := hp.trans_le (Nat.pow_le_pow_right (by omega) hW)
    rw [ofNat_or_one_toNat h1 hpW, ofNat_or_one_toNat (h1.trans hWW') (hpW.trans_le (Nat.pow_le_pow_right (by omega) hWW'))]

/-- Settles O43: ADV tests every value alike under the two masks, since bit 0 of a shifted value is 0; where they differ, the scan
found bit 0 alone. -/
theorem lowerScanBoundIsUnobservable : Obligations.LowerScanBoundIsUnobservable := by
  refine fun W p s => ⟨fun n => ?sequence, fun hW => ⟨maskScan_zero_ne_maskOf_iff p hW, fun hne => ?mask⟩⟩
  case sequence =>
    have sameTest := hits_maskScan_zero p
    exact ⟨genBit_congr_mask sameTest _ s n, genData_congr_mask sameTest _ s n⟩
  case mask =>
    obtain ⟨hzero, hbit⟩ := (maskScan_zero_ne_maskOf_iff p hW).mp hne
    rw [maskScan_zero_eq p hW, if_pos ⟨(maskOf_eq_zero_iff p).mpr hzero, hbit⟩, bitAt_eq_ofNat, pow_zero]

end Sys2Proof.Machine
end

section
/-! PROOFS. The statements of 70_reset_and_hazards.md: the commands between a reset step and the first INIT (rule R124), and
reset steps, one and two in a row (rule R120). -/

namespace Sys2Proof.Machine

/-- Settles O38: the stream generates the sequence of the three zeros, whose every value is 0 and whose every bit is 0, since
`data = 0` is a fixed point of ADV (rule R89). -/
theorem commandsBeforeTheFirstInitAreInert : Obligations.CommandsBeforeTheFirstInitAreInert := by
  intro W ins rest hins
  obtain ⟨hrun, hbits⟩ := run_and_bitsReturned_of_isIdleOrAdv (Register.zero W) ins rest hins
  refine ⟨hrun.trans ?registers, hbits.trans ?bits⟩
  case registers => rw [Register.zero, genData_zero_data, State.resetAt, Register.zero]
  case bits =>
    rw [Register.zero, List.map_congr_left fun n _ => genBit_zero_data 0#W 0#W n, List.map_const', List.length_range]

/-- Settles O13: each of the two steps is a reset step, which reads neither the registers nor the command. -/
theorem resetWinsOverEveryCommand : Obligations.ResetWinsOverEveryCommand := by
  intro W r b c c' rest
  have first := step_reset r b ⟨true, c⟩ (⟨true, c'⟩ :: rest) rfl
  have second := step_reset (Register.zero W) true ⟨true, c'⟩ rest rfl
  exact ⟨step_reset r b ⟨true, c⟩ rest rfl, (run_succ_of_next first).trans (run_succ_of_next second)⟩

end Sys2Proof.Machine
end

section
/-! PROOFS. The invariant of a run (10_state.md rules R21, R22): it holds after reset, and every step keeps it; and what every step
does to the width and the stream (00_scope.md rule R5, log entry 2). First what the invariant says of the registers, and each thing
that a step can do to them. -/

namespace Sys2Proof.Machine

section
variable {W : Nat}

theorem Register.wf_iff (r : Register W) :
    r.wf = true ↔ r.mask = maskOf r.polynomial ∧ (r.polynomial.getLsbD 0 = true ∨ r = Register.zero W) := by
  rw [Register.wf, Bool.and_eq_true, Bool.or_eq_true, decide_eq_true_iff, decide_eq_true_iff]

/-- The scan of no polynomial finds nothing. -/
@[simp] theorem maskOf_zero : maskOf (0#W) = 0#W :=
  (maskOf_eq_zero_iff _).mpr fun _ _ _ => BitVec.getLsbD_zero

/-- After a reset step all three registers are 0 (rule R21). -/
theorem Register.zero_wf (W : Nat) : (Register.zero W).wf = true :=
  (Register.wf_iff _).mpr ⟨maskOf_zero.symm, .inr rfl⟩

/-- INIT writes the scan of the operand, which is the scan of the polynomial it stores, and forces bit 0 (rule R21). -/
theorem Register.load_wf (hW : 1 ≤ W) (p d : Word W) : (Register.load p d).wf = true := by
  refine (Register.wf_iff _).mpr ⟨(maskOf_or_one p).symm, .inl ?_⟩
  rw [Register.load_polynomial, getLsbD_or_one p hW, decide_eq_true rfl, Bool.or_true]

/-- ADV keeps the configuration, and three zeros stay zero (rules R22, R89). -/
theorem Register.advance_wf {r : Register W} (h : r.wf = true) : r.advance.wf = true := by
  obtain ⟨hmask, hbit | rfl⟩ := r.wf_iff.mp h
  · exact (Register.wf_iff _).mpr ⟨hmask, .inl hbit⟩
  · rwa [Register.zero, Register.advance_of_zero_data]

/-- What a step with a result can leave in the registers (70_reset_and_hazards.md rule R126). -/
theorem Register.next_cases {r r' : Register W} {inp : Input W} (h : r.next inp = some r') :
    r' = Register.zero W ∨ r' = r ∨ r' = r.advance ∨ ∃ p d : Word W, r' = Register.load p d := by
  obtain ⟨rst, op, p, d⟩ := inp
  cases rst with
  | true => exact .inl (Option.some.inj h).symm
  | false =>
    obtain rfl | rfl | rfl | rfl := opcode_cases op
    · exact .inr (.inl (Option.some.inj h).symm)
    · exact .inr (.inr (.inl (Option.some.inj h).symm))
    · exact .inr (.inr (.inr ⟨p, d, (Option.some.inj h).symm⟩))
    · exact nomatch h

theorem Register.next_wf (hW : 1 ≤ W) {r r' : Register W} {inp : Input W} (hr : r.wf = true)
    (h : r.next inp = some r') : r'.wf = true := by
  obtain rfl | rfl | rfl | ⟨p, d, rfl⟩ := Register.next_cases h
  · exact Register.zero_wf W
  · exact hr
  · exact Register.advance_wf hr
  · exact Register.load_wf hW p d

end

theorem State.inv_iff (s : State) : s.inv = true ↔ 1 ≤ s.width ∧ (s.resetSeen = true → s.reg.wf = true) := by
  rw [State.inv, Bool.and_eq_true, decide_eq_true_iff, Bool.or_eq_true, Bool.not_eq_true', Bool.eq_false_iff, imp_iff_not_or]

/-- Everything a step can do when it answers a next state, from any state: it takes one tuple off the stream, and leaves the three
zeros or what the command makes of the registers (70_reset_and_hazards.md rule R126). -/
theorem step_next_cases {s t : State} (h : step s = .next t) :
    ∃ inp rest r', s.inputs = inp :: rest ∧ t = ⟨s.width, r', true, rest⟩ ∧
      (r' = Register.zero s.width ∨ (s.resetSeen = true ∧ s.reg.next inp = some r')) := by
  obtain ⟨W, r, b, ins⟩ := s
  cases ins with
  | nil => exact nomatch (step_end r b).symm.trans h
  | cons inp rest =>
    obtain ⟨-, rfl⟩ | ⟨-, hseen, r', hnext, rfl⟩ := step_cases r b inp rest h
    · exact ⟨inp, rest, _, rfl, rfl, .inl rfl⟩
    · exact ⟨inp, rest, r', rfl, rfl, .inr ⟨hseen, hnext⟩⟩

/-- Settles O24: a step leaves the three zeros, or it is a command after a reset step, which finds registers that satisfy the
invariant and keeps it. -/
theorem stepKeepsTheInvariant : Obligations.StepKeepsTheInvariant := by
  intro s t hinv hstep
  obtain ⟨hW, hreg⟩ := s.inv_iff.mp hinv
  obtain ⟨inp, rest, r', -, rfl, hr'⟩ := step_next_cases hstep
  refine (State.inv_iff _).mpr ⟨hW, fun _ => ?_⟩
  obtain rfl | ⟨hseen, hnext⟩ := hr'
  · exact Register.zero_wf s.width
  · exact Register.next_wf hW (hreg hseen) hnext

/-- Settles O23: after a reset step the registers are the three zeros; at power-up no reset step has happened, so nothing is asked
of them. -/
theorem invariantHoldsAtReset : Obligations.InvariantHoldsAtReset := by
  have afterReset (W : Nat) (ins : List (Input W)) (hW : 1 ≤ W) : (State.resetAt W ins).inv = true :=
    (State.inv_iff _).mpr ⟨hW, fun _ => Register.zero_wf W⟩
  have atPowerOn (W : Nat) (ins : List (Input W)) (hW : 1 ≤ W) : (State.powerOn W ins).inv = true :=
    (State.inv_iff _).mpr ⟨hW, nofun⟩
  exact ⟨afterReset Config.width [] (by decide), Register.zero_wf, fun W ins hW => ⟨afterReset W ins hW, atPowerOn W ins hW⟩⟩

/-- Settles O20: the state that a step answers has the width of the old one, and the tail of its stream. -/
theorem stepKeepsWidthAndTakesOneTuple : Obligations.StepKeepsWidthAndTakesOneTuple := by
  intro s t hstep
  obtain ⟨inp, rest, r', hins, rfl, -⟩ := step_next_cases hstep
  rw [hins]
  exact ⟨rfl, HEq.rfl, List.cons_ne_nil inp rest, rfl⟩

end Sys2Proof.Machine
end

section
/-! PROOFS. The encodings of 30_encoding.md again: decode and encode agree (rules R41, R42, R43), the command words that the spec
writes out, and the tuples of a trace (rules R48, R49). First the decoder on the word of a command, and the encoder on a line. -/

namespace Sys2Proof

/-- The word of a command decodes as the command does (rule R41). -/
theorem decodeWord_toWord {W : Nat} (c : Command W) : decodeWord W c.toWord.toNat = .ok (decode c) := by
  rw [decodeWord, if_pos c.toWord.isLt, BitVec.ofNat_toNat, BitVec.setWidth_eq, Command.ofWord_toWord]

/-- A number with a bit above the command word is rejected (rules R41, R47). -/
theorem decodeWord_of_le {W n : Nat} (h : 2 ^ (2 + W + W) ≤ n) : decodeWord W n = .error .wordTooWide := by
  rw [decodeWord, if_neg h.not_gt]

theorem wellFormed_init_iff {W p q : Nat} : (Instr.init p q).wellFormed W = true ↔ p < 2 ^ W ∧ q < 2 ^ W := by
  rw [Instr.wellFormed, Bool.and_eq_true, fitsIn, fitsIn, decide_eq_true_iff, decide_eq_true_iff]

/-- The ports carry the operands of INIT unchanged if they fit (rule R43). -/
theorem decode_encode {W : Nat} {i : Instr} (h : i.wellFormed W = true) : decode (encode W i) = i := by
  cases i with
  | idle => rfl
  | adv => rfl
  | init p q =>
    obtain ⟨hp, hq⟩ := wellFormed_init_iff.mp h
    rw [encode, opInit, decode_opInit, BitVec.toNat_ofNat, BitVec.toNat_ofNat, Nat.mod_eq_of_lt hp, Nat.mod_eq_of_lt hq]
  | reserved11 => rfl

/-- Settles O29: the encoder's command decodes to the instruction, and its word decodes as the command does. -/
theorem decodeOfEncodeIsTheInstruction : Obligations.DecodeOfEncodeIsTheInstruction := fun W i h =>
  ⟨decode_encode h, (decodeWord_toWord (encode W i)).trans (congrArg Except.ok (decode_encode h))⟩

/-- Settles O31: each word that the spec writes out by evaluating the decoder, the numbers that are no command word by the bound
that it checks. -/
theorem writtenCommandWordsDecode : Obligations.WrittenCommandWordsDecode := by
  refine ⟨by decide, by decide, by decide, by decide, fun W n hn => decodeWord_of_le ?_⟩
  rwa [Nat.add_assoc, ← Nat.two_mul]

end Sys2Proof

namespace Sys2Proof.Machine

/-- An INIT line stands for the encoder's command if both literals fit (rule R48). -/
theorem expand_init_of_lt {W p q : Nat} (hp : p < 2 ^ W) (hq : q < 2 ^ W) :
    TraceCommand.expand W (.init p q) = .ok [⟨false, encode W (.init p q)⟩] := by
  rw [TraceCommand.expand, if_pos (wellFormed_init_iff.mpr ⟨hp, hq⟩)]

/-- An INIT line with a literal that does not fit is an error (rule R48). -/
theorem expand_init_of_le {W p q : Nat} (h : 2 ^ W ≤ p ∨ 2 ^ W ≤ q) :
    TraceCommand.expand W (.init p q) = .error .literalTooWide := by
  rw [TraceCommand.expand, if_neg fun hwf => ?_]
  obtain ⟨hp, hq⟩ := wellFormed_init_iff.mp hwf
  exact h.elim hp.not_ge hq.not_ge

/-- Settles O32: the expansion of each line, where INIT needs operands that fit and REINIT is read as INIT. -/
theorem pseudoCommandsExpand : Obligations.PseudoCommandsExpand := fun W _ _ _ =>
  ⟨⟨encode W .idle, rfl⟩, rfl, rfl, expand_init_of_lt, rfl, rfl, rfl⟩

/-- Settles O33: an INIT line checks both literals before it is expanded. -/
theorem wideLiteralsAreTraceErrors : Obligations.WideLiteralsAreTraceErrors := fun _ _ _ => expand_init_of_le

end Sys2Proof.Machine
end

section
/-! PROOFS. Runs as a whole: the refusals that are the model's own (log entries 3, 6), a step as exec of its command (rule R126), a
repeated INIT (20_memory.md rule R33), and which streams run to their end (rule R128). First the refusals of INIT and of a tuple. -/

namespace Sys2Proof.Machine

/-- INIT is refused for a number that no `W`-bit port carries (log entry 6). -/
theorem exec_init_of_le (s : State) {p q : Nat} (h : 2 ^ s.width ≤ p ∨ 2 ^ s.width ≤ q) :
    exec (.init p q) s = .refused .operandTooWide := by
  obtain hp | hq := h
  · simp [exec, execInit, operand_of_le hp]
  · simp [exec, execInit, operand_of_le hq]

/-- Settles O11: INIT answers a next state exactly if both operands fit; IDLE and ADV always do, and the reserved command is refused
under another name. -/
theorem onlyUnpresentableOperandsAreRefused : Obligations.OnlyUnpresentableOperandsAreRefused := by
  refine ⟨fun s p q h => exec_init_of_le s h, fun s p q why hrefused => ?init, fun i s hrefused => ?others,
    fun W c => decode_wellFormed c⟩
  case init =>
    by_contra hfit
    obtain ⟨hp, hq⟩ := not_or.mp hfit
    exact nomatch (exec_init_of_lt s (Nat.lt_of_not_le hp) (Nat.lt_of_not_le hq)).symm.trans hrefused
  case others =>
    cases i with
    | idle => exact nomatch (exec_idle s).symm.trans hrefused
    | adv => exact nomatch (exec_adv s).symm.trans hrefused
    | init p q => exact ⟨p, q, rfl⟩
    | reserved11 => exact nomatch (exec_reserved11 s).symm.trans hrefused

/-- A command step after a reset step is exec of the decoded command (rule R126). -/
theorem step_command {W : Nat} (r : Register W) (c : Command W) (rest : List (Input W)) :
    step ⟨W, r, true, ⟨false, c⟩ :: rest⟩ = exec (decode c) ⟨W, r, true, rest⟩ := rfl

/-- Settles O15: the decoder answers an instruction of this width, and the step runs it. -/
theorem stepRunsTheDecodedCommand : Obligations.StepRunsTheDecodedCommand := by
  rintro W r c rest _ rfl
  exact ⟨decode_wellFormed c, step_command r c rest⟩

/-- Settles O17: no tuple is sampled. -/
theorem emptyStreamEndsTheRun : Obligations.EmptyStreamEndsTheRun := fun _ r b => step_end r b

/-- A step that samples the encoder's INIT, whatever the registers hold (40_initialize.md rules R60, R65). -/
theorem step_encode_init {W : Nat} (r : Register W) (p q : Nat) (ins : List (Input W)) :
    step ⟨W, r, true, ⟨false, encode W (.init p q)⟩ :: ins⟩ =
      .next ⟨W, Register.load (BitVec.ofNat W p) (BitVec.ofNat W q), true, ins⟩ := step_init r ins _ _

/-- Settles O12: the first INIT loads the registers, IDLE and ADV run to their end in some registers, and the second INIT loads the
same ones as the first, since it reads none. -/
theorem repeatedInitRestartsTheSequence : Obligations.RepeatedInitRestartsTheSequence := by
  intro W r p q between rest _ _ hbetween again
  have first := step_encode_init r p q (between ++ again :: rest)
  obtain ⟨hrun, -⟩ := run_and_bitsReturned_of_isIdleOrAdv (Register.load (BitVec.ofNat W p) (BitVec.ofNat W q)) between
    (again :: rest) hbetween
  refine ⟨_, run_succ_of_next first, ?_⟩
  calc run (between.length + 2) ⟨W, r, true, again :: (between ++ again :: rest)⟩
      = run (between.length + 1) ⟨W, _, true, between ++ again :: rest⟩ := run_succ_of_next first
    _ = run 1 ⟨W, _, true, again :: rest⟩ := run_add_of_next hrun
    _ = .next ⟨W, _, true, rest⟩ := run_succ_of_next (step_encode_init _ p q rest)

/-- The reserved command with `rst = 0` is the only tuple without a result on the registers (rules R81, R128 (b)). -/
theorem Register.next_of_not_permitted {W : Nat} (r : Register W) {inp : Input W} (h : ¬ permitted inp = true) :
    r.next inp = none := by
  obtain ⟨rst, op, p, d⟩ := inp
  cases rst with
  | true => exact absurd rfl h
  | false =>
    obtain rfl | rfl | rfl | rfl := opcode_cases op
    · exact absurd rfl h
    · exact absurd rfl h
    · exact absurd rfl h
    · rfl

/-- A run is safe if its first step has a next state and the run from there is safe. -/
theorem safeFor_succ_of_next {n : Nat} {s t : State} (h : step s = .next t) : SafeFor (n + 1) s ↔ SafeFor n t := by
  rw [SafeFor, run_succ_of_next h, SafeFor]

theorem not_safeFor_succ_of_refused {n : Nat} {s : State} {why : Refusal} (h : step s = .refused why) :
    ¬ SafeFor (n + 1) s := by
  rintro ⟨t, hrun⟩
  rw [run_succ, h] at hrun
  exact nomatch hrun

/-- After a reset step a stream runs to its end exactly if every tuple of it is permitted, by induction on the stream
(rule R128 (b)). -/
theorem safeFor_running_iff {W : Nat} (r : Register W) (ins : List (Input W)) :
    SafeFor ins.length ⟨W, r, true, ins⟩ ↔ ins.all permitted = true := by
  induction ins generalizing r with
  | nil => exact iff_of_true ⟨_, rfl⟩ rfl
  | cons inp ins ih =>
    rw [List.length_cons, List.all_cons, Bool.and_eq_true]
    by_cases hinp : permitted inp = true
    · obtain ⟨r', hnext⟩ := r.next_of_permitted hinp
      have hstep : step ⟨W, r, true, inp :: ins⟩ = .next ⟨W, r', true, ins⟩ := by rw [step_running, hnext]
      rw [safeFor_succ_of_next hstep, ih r', hinp, eq_self_iff_true, true_and]
    · have hstep : step ⟨W, r, true, inp :: ins⟩ = .refused .reservedCommand := by
        rw [step_running, r.next_of_not_permitted hinp]
      exact iff_of_false (not_safeFor_succ_of_refused hstep) fun h => hinp h.1

/-- Before a reset step the host has to begin with one, and at that step it may drive any command (rule R128 (a), (b)). -/
theorem hostObeys_beforeReset {W : Nat} (r : Register W) (inp : Input W) (ins : List (Input W)) :
    State.hostObeys ⟨W, r, false, inp :: ins⟩ = (inp.rst && ins.all permitted) := by
  cases hrst : inp.rst with
  | true => simp [State.hostObeys, permitted, hrst]
  | false => simp [State.hostObeys, hrst]

/-- Settles O19: after a reset step by the permitted tuples; before it, a first tuple that resets begins such a run, and any other is
refused. -/
theorem runCompletesExactlyIfTheHostObeys : Obligations.RunCompletesExactlyIfTheHostObeys := by
  rintro ⟨W, r, b, ins⟩
  cases b with
  | true => exact safeFor_running_iff r ins
  | false =>
    cases ins with
    | nil => exact iff_of_true ⟨_, rfl⟩ rfl
    | cons inp ins =>
      rw [hostObeys_beforeReset]
      cases hrst : inp.rst with
      | true => exact (safeFor_succ_of_next (step_reset r false inp ins hrst)).trans (safeFor_running_iff _ ins)
      | false =>
        exact iff_of_false (not_safeFor_succ_of_refused (step_before_reset r inp ins hrst)) Bool.false_ne_true

end Sys2Proof.Machine
end

section
/-! PROOFS. The cycles of 43_sequence_properties.md: the low `k` bits of `data` run through a pure cycle (rule R92 with the forced
bit 0 of rule R61), and the two examples of rule R93, whose cycle is all of 1 to 15. First that ADV is injective on the low
bits. -/

namespace Sys2Proof.Machine

/-- After an ADV bit 0 is the bit returned: the shift clears it, and bit 0 of the stored polynomial is 1 (rule R61). -/
theorem getLsbD_zero_seqData_succ {W : Nat} (p s : Word W) (n : Nat) (hW : 1 ≤ W) :
    (seqData p s (n + 1)).getLsbD 0 = seqBit p s n := by
  rw [seqData, getLsbD_genData_succ, getLsbD_shl1, getLsbD_or_one p hW, decide_eq_true rfl, Bool.or_true, Bool.and_true]
  exact Bool.false_xor _

section
variable {W k : Nat} {p : Word W} {s s' : Word W} (h1 : 1 ≤ k) (hk : k ≤ W - 2) (hm : (maskOf p).toNat = 2 ^ k)
include h1 hk hm

/-- ADV is injective on the low `k` bits: bit 0 after it is bit `k-1` before it, and then each other bit is read off the bit above
it (rule R92). -/
theorem agreeBelow_of_seqData_succ {m n : Nat} (h : AgreeBelow k (seqData p s (m + 1)) (seqData p s' (n + 1))) :
    AgreeBelow k (seqData p s m) (seqData p s' n) := by
  have hbit : seqBit p s m = seqBit p s' n := by
    rw [← getLsbD_zero_seqData_succ p s m (by omega), ← getLsbD_zero_seqData_succ p s' n (by omega), h 0 h1]
  intro i hi
  obtain htop | hlt := Nat.eq_or_lt_of_le (show i + 1 ≤ k from hi)
  · rwa [seqBit_eq_getLsbD s h1 hk hm, seqBit_eq_getLsbD s' h1 hk hm, show k - 1 = i by omega] at hbit
  · have hnext := h (i + 1) hlt
    rwa [getLsbD_seqData_succ p s m (by omega) (by omega), getLsbD_seqData_succ p s' n (by omega) (by omega), hbit,
      Nat.add_sub_cancel, Bool.xor_left_inj] at hnext

/-- So is any number of ADV. -/
theorem agreeBelow_of_seqData_add {m n : Nat} (d : Nat) (h : AgreeBelow k (seqData p s (m + d)) (seqData p s' (n + d))) :
    AgreeBelow k (seqData p s m) (seqData p s' n) := by
  induction d with
  | zero => exact h
  | succ d ih => exact ih (agreeBelow_of_seqData_succ h1 hk hm h)

/-- Seeds with the same low `k` bits give the same low `k` bits after any number of ADV, and only such seeds do. -/
theorem seqData_agreeBelow_iff (n : Nat) :
    AgreeBelow k (seqData p s n) (seqData p s' n) ↔ AgreeBelow k s s' := by
  constructor
  · intro h
    exact agreeBelow_of_seqData_add (m := 0) (n := 0) h1 hk hm n (by rwa [Nat.zero_add])
  · intro h
    exact genData_agreeBelow (by omega) (by omega) (testAlike_maskOf_of_toNat_eq h1 hk hk hm hm) (fun _ _ => rfl) h n

/-- The low bits are 0 at a time exactly if they are 0 at the beginning: `data = 0` is a fixed point (rule R89). -/
theorem seqData_mod_eq_zero_iff (n : Nat) : (seqData p s n).toNat % 2 ^ k = 0 ↔ s.toNat % 2 ^ k = 0 := by
  have h := seqData_agreeBelow_iff (s := s) (s' := 0#W) h1 hk hm n
  rwa [agreeBelow_iff, agreeBelow_iff, show seqData p 0#W n = 0#W from genData_zero_data _ _ n, BitVec.toNat_zero,
    Nat.zero_mod] at h

/-- Two equal values of the low bits among the first `2 ^ k`, if none of them is 0: there are `2 ^ k - 1` others. -/
theorem exists_seqData_mod_eq (hs : s.toNat % 2 ^ k ≠ 0) :
    ∃ i j, i < j ∧ j < 2 ^ k ∧ (seqData p s i).toNat % 2 ^ k = (seqData p s j).toNat % 2 ^ k := by
  have hpos : 0 < 2 ^ k := Nat.two_pow_pos k
  have hcard : ((Finset.range (2 ^ k)).erase 0).card < (Finset.range (2 ^ k)).card :=
    Finset.card_erase_lt_of_mem (Finset.mem_range.mpr hpos)
  have hmaps : ∀ i ∈ Finset.range (2 ^ k), (seqData p s i).toNat % 2 ^ k ∈ (Finset.range (2 ^ k)).erase 0 := fun i _ =>
    Finset.mem_erase.mpr ⟨mt (seqData_mod_eq_zero_iff h1 hk hm i).mp hs, Finset.mem_range.mpr (Nat.mod_lt _ hpos)⟩
  obtain ⟨i, hi, j, hj, hne, heq⟩ := Finset.exists_ne_map_eq_of_card_lt_of_maps_to hcard hmaps
  obtain hlt | hlt := Nat.lt_or_gt_of_ne hne
  · exact ⟨i, j, hlt, Finset.mem_range.mp hj, heq⟩
  · exact ⟨j, i, hlt, Finset.mem_range.mp hi, heq.symm⟩

/-- The low bits come back to where they started: 0 at once, any other value when ADV is undone from two equal values. -/
theorem exists_seqData_mod_eq_seed : ∃ n, 1 ≤ n ∧ n ≤ 2 ^ k - 1 ∧ (seqData p s n).toNat % 2 ^ k = s.toNat % 2 ^ k := by
  by_cases hs : s.toNat % 2 ^ k = 0
  · have hk1 : 2 ≤ 2 ^ k := Nat.le_self_pow (by omega) 2
    exact ⟨1, le_rfl, by omega, by rw [hs, (seqData_mod_eq_zero_iff h1 hk hm 1).mpr hs]⟩
  · obtain ⟨i, j, hij, hj, heq⟩ := exists_seqData_mod_eq h1 hk hm hs
    refine ⟨j - i, by omega, by omega, agreeBelow_iff.mp ?_⟩
    refine agreeBelow_of_seqData_add (n := 0) h1 hk hm i ?_
    rw [Nat.sub_add_cancel hij.le, Nat.zero_add]
    exact agreeBelow_iff.mpr heq.symm

end

/-- Settles O45: ADV is injective on the low bits and leaves 0 at 0, so a nonzero value never becomes 0, and among `2 ^ k` values
two are equal. -/
theorem lowBitsRunThroughAPureCycle : Obligations.LowBitsRunThroughAPureCycle := fun _ _ _ _ h1 hk hm =>
  ⟨exists_seqData_mod_eq_seed h1 hk hm, fun hs n => mt (seqData_mod_eq_zero_iff h1 hk hm n).mp hs⟩

/-- The sequence from a value of a sequence is the rest of that sequence. -/
theorem seqData_seqData {W : Nat} (p s : Word W) (m n : Nat) : seqData p (seqData p s m) n = seqData p s (m + n) := by
  induction n with
  | zero => rfl
  | succ n ih =>
    rw [seqData] at ih ⊢
    rw [genData_succ, ih]
    exact (genData_succ _ _ _ (m + n)).symm

section
variable {W T : Nat} {p s : Word W} (hreturn : seqData p s T = s)
include hreturn

/-- A sequence that comes back to its seed is periodic. -/
theorem seqData_periodic : Function.Periodic (seqData p s) T := fun n => by
  rw [Nat.add_comm, ← seqData_seqData, hreturn]

/-- So is the sequence from any value of it. -/
theorem seqData_seqData_period (a : Nat) : seqData p (seqData p s a) T = seqData p s a := by
  rw [seqData_seqData]
  exact seqData_periodic hreturn a

/-- On such a cycle each value leads to each other one within a period. -/
theorem exists_seqData_seqData_eq (hT : 0 < T) {a : Nat} (ha : a ≤ T) (b : Nat) :
    ∃ n, n < T ∧ seqData p (seqData p s a) n = seqData p s b := by
  refine ⟨(T - a + b) % T, Nat.mod_lt _ hT, ?_⟩
  calc seqData p (seqData p s a) ((T - a + b) % T)
      = seqData p (seqData p s a) (T - a + b) :=
        (seqData_periodic (seqData_seqData_period hreturn a)).map_mod_nat _
    _ = seqData p s (b + T) := by rw [seqData_seqData, show a + (T - a + b) = b + T by omega]
    _ = seqData p s b := seqData_periodic hreturn b

end

/-- The cycle of `0x19` from seed 1 (95_test_vectors.md S5). -/
theorem seqData_0x19_cycle :
    (List.range 15).map (seqData 0x19#8 1#8) = [1, 2, 4, 8, 9, 11, 15, 7, 14, 5, 10, 13, 3, 6, 12] ∧
    seqData 0x19#8 1#8 15 = 1#8 := by decide

/-- The cycle of `0x13` from seed 1 (95_test_vectors.md S5). -/
theorem seqData_0x13_cycle :
    (List.range 15).map (seqData 0x13#8 1#8) = [1, 2, 4, 8, 3, 6, 12, 11, 5, 10, 7, 14, 15, 13, 9] ∧
    seqData 0x13#8 1#8 15 = 1#8 := by decide

/-- On both cycles stand all of 1 to 15, and the 15th step returns to the seed. -/
theorem degreeFour_cycle {p : Word 8} (hp : p = 0x19#8 ∨ p = 0x13#8) :
    (∀ v, 1 ≤ v → v ≤ 15 → BitVec.ofNat 8 v ∈ (List.range 15).map (seqData p 1#8)) ∧ seqData p 1#8 15 = 1#8 := by
  obtain rfl | rfl := hp
  · obtain ⟨hvalues, hreturn⟩ := seqData_0x19_cycle
    exact ⟨by rw [hvalues]; decide, hreturn⟩
  · obtain ⟨hvalues, hreturn⟩ := seqData_0x13_cycle
    exact ⟨by rw [hvalues]; decide, hreturn⟩

/-- Settles O44: every seed stands on the cycle of seed 1, and from there every value is reached within the period. -/
theorem degreeFourExamplesHavePeriodFifteen : Obligations.DegreeFourExamplesHavePeriodFifteen := by
  intro p hp s h1 hs
  obtain ⟨hall, hreturn⟩ := degreeFour_cycle hp
  have small {v : Nat} (hv : v ≤ 15) : (BitVec.ofNat 8 v).toNat = v := Nat.mod_eq_of_lt (by omega)
  obtain ⟨a, ha, hseed⟩ := List.mem_map.mp (hall s h1 hs)
  rw [← hseed]
  refine ⟨fun v hv1 hv => ?reached, ?returns⟩
  case reached =>
    obtain ⟨b, -, hvalue⟩ := List.mem_map.mp (hall v hv1 hv)
    obtain ⟨n, hn, heq⟩ := exists_seqData_seqData_eq hreturn (by decide) (List.mem_range.mp ha).le b
    exact ⟨n, hn, by rw [heq, hvalue, small hv]⟩
  case returns => rw [seqData_seqData_period hreturn, hseed, small hs]

end Sys2Proof.Machine
end
